-- ==== Sys2Proof/Word.lean ====
section
/-! DEFINITION. The word types of visualvm CORE (spec/00_scope.md rules R7 to R11, spec/20_memory.md rule R29). -/

namespace Sys2Proof

/-- A byte: every operand value and every result (R8). -/
abbrev Byte := BitVec 8

/-- A colour: four 8-bit channels, R ++ G ++ B ++ A (R29). -/
abbrev Colour := BitVec 32

/-- The 12-bit linear index of a grid cell, 64 × y + x (R25). -/
abbrev Cell := BitVec 12

/-- An operation index, the value the program counter holds (R9, R18). -/
abbrev OpIndex := BitVec 16

/-- One 32-bit lane of an operation word: the header or a slot (R50). -/
abbrev Lane := BitVec 32

/-- An operation word (R11, R48). -/
abbrev OpWord := BitVec 128

end Sys2Proof
end

