-- ==== Sys2Proof/Syntax.lean ====
section
/-! DEFINITION. The operation set of visualvm CORE: one constructor per row of spec/opcode_table.json
(spec/30_encoding.md rules R53 to R56 and R62). -/

namespace Sys2Proof

/-- An operand slot, by its kind (R53) with the fields of its payload (R54). -/
inductive Slot where
  /-- LIT: a bare literal, one byte. -/
  | lit (v : Byte)
  /-- DIR: a direct address, the linear index of a cell. -/
  | dir (a : Cell)
  /-- PTR: a pointer, the linear indices of its x-cell and its y-cell. -/
  | ptr (xc yc : Cell)
  /-- IDX: a jump index. -/
  | idx (t : OpIndex)
  deriving DecidableEq, Repr

/-- The operations (R55). A constructor of an unassigned opcode keeps the opcode bits that its row leaves free (`op`) and
the 120 other bits of the word (`rest`), which the decoder ignores (R62): so every word has its own term. -/
inductive Instr where
  | cpy (dst src : Slot)
  | add (dst a b : Slot)
  | sub (dst a b : Slot)
  | mul (dst a b : Slot)
  | rng (dst : Slot)
  | jmp (target : Slot)
  /-- opcode 0x00 -/
  | nop00 (rest : BitVec 120)
  /-- opcode 0x07 -/
  | nop07 (rest : BitVec 120)
  /-- opcodes 0x08 to 0x0F -/
  | nop08 (op : BitVec 3) (rest : BitVec 120)
  /-- opcodes 0x10 to 0x1F -/
  | nop10 (op : BitVec 4) (rest : BitVec 120)
  /-- opcodes 0x20 to 0x3F -/
  | nop20 (op : BitVec 5) (rest : BitVec 120)
  /-- opcodes 0x40 to 0x7F -/
  | nop40 (op : BitVec 6) (rest : BitVec 120)
  /-- opcodes 0x80 to 0xFF -/
  | nop80 (op : BitVec 7) (rest : BitVec 120)
  deriving DecidableEq, Repr

end Sys2Proof
end

