-- ==== Sys2Proof/WellFormed.lean ====
section
/-! DEFINITION. Which operations are well-formed (spec/30_encoding.md rules R56 to R62). The checks on reserved and unused
bits (R57, R58, R60) are checks of words and stand in Decode.lean; a term of `Instr` has no such bits. -/

namespace Sys2Proof

/-- Why an operation word is ill-formed: the rule it breaks. -/
inductive IllFormed where
  /-- R57: W[119:96] is not zero. -/
  | headerReserved
  /-- R58: S[29:24] of a used slot is not zero. -/
  | slotReserved
  /-- R58: a payload bit that the slot's kind does not use is set. -/
  | payloadUnused
  /-- R59: a used slot holds a kind that R56 does not allow it. -/
  | operandKind
  /-- R60: an unused slot is not zero. -/
  | unusedSlot
  /-- R62: the opcode is unassigned and STRICT is true. -/
  | unassignedUnderStrict
  deriving DecidableEq, Repr

/-- The kinds a destination may have: DIR or PTR (R56). -/
def Slot.isDest : Slot → Bool
  | .lit _ => false
  | .dir _ => true
  | .ptr _ _ => true
  | .idx _ => false

/-- The kinds a source may have: LIT, DIR or PTR (R56). -/
def Slot.isSource : Slot → Bool
  | .lit _ => true
  | .dir _ => true
  | .ptr _ _ => true
  | .idx _ => false

/-- The kind of a jump target: IDX (R56). -/
def Slot.isIndex : Slot → Bool
  | .lit _ => false
  | .dir _ => false
  | .ptr _ _ => false
  | .idx _ => true

/-- The kind check (R59): each slot holds a kind that R56 allows it. -/
def Instr.kindsOk : Instr → Bool
  | .cpy dst src => dst.isDest && src.isSource
  | .add dst a b => dst.isDest && a.isSource && b.isSource
  | .sub dst a b => dst.isDest && a.isSource && b.isSource
  | .mul dst a b => dst.isDest && a.isSource && b.isSource
  | .rng dst => dst.isDest
  | .jmp target => target.isIndex
  | .nop00 _ => true
  | .nop07 _ => true
  | .nop08 _ _ => true
  | .nop10 _ _ => true
  | .nop20 _ _ => true
  | .nop40 _ _ => true
  | .nop80 _ _ => true

/-- The operation has one of the six assigned opcodes (R55). -/
def Instr.assigned : Instr → Bool
  | .cpy _ _ => true
  | .add _ _ _ => true
  | .sub _ _ _ => true
  | .mul _ _ _ => true
  | .rng _ => true
  | .jmp _ => true
  | .nop00 _ => false
  | .nop07 _ => false
  | .nop08 _ _ => false
  | .nop10 _ _ => false
  | .nop20 _ _ => false
  | .nop40 _ _ => false
  | .nop80 _ _ => false

/-- Well-formed under STRICT or not (R59, R62): the kinds fit, and under STRICT the opcode is assigned. -/
def Instr.wf (strict : Bool) (i : Instr) : Bool :=
  i.kindsOk && (i.assigned || !strict)

end Sys2Proof
end

