-- ==== Sys2Proof/Decode.lean ====
section
/-! DEFINITION. Decoding and encoding of operation words (spec/30_encoding.md rules R48 to R63), and words as bytes (R49). -/

namespace Sys2Proof

/-- The opcode, W[127:120] (R51). -/
def opcode (W : OpWord) : BitVec 8 := W.extractLsb' 120 8

/-- The reserved bits of the header, W[119:96] (R51). -/
def headerReserved (W : OpWord) : BitVec 24 := W.extractLsb' 96 24

/-- Slot S0, W[95:64] (R50). -/
def lane0 (W : OpWord) : Lane := W.extractLsb' 64 32

/-- Slot S1, W[63:32] (R50). -/
def lane1 (W : OpWord) : Lane := W.extractLsb' 32 32

/-- Slot S2, W[31:0] (R50). -/
def lane2 (W : OpWord) : Lane := W.extractLsb' 0 32

/-- The bits below the opcode, W[119:0], which an unassigned opcode ignores (R62). -/
def belowOpcode (W : OpWord) : BitVec 120 := W.extractLsb' 0 120

/-- The header check (R57). -/
def checkHeader (W : OpWord) : Except IllFormed Unit :=
  if headerReserved W = 0 then .ok () else .error .headerReserved

/-- A used slot: its reserved bits (R52, R58), its kind (R53) and its payload (R54, R58). -/
def decodeSlot (S : Lane) : Except IllFormed Slot :=
  if S.extractLsb' 24 6 ≠ 0 then .error .slotReserved
  else if S.extractLsb' 30 2 = 0b00#2 then
    if S.extractLsb' 8 16 ≠ 0 then .error .payloadUnused else .ok (.lit (S.extractLsb' 0 8))
  else if S.extractLsb' 30 2 = 0b01#2 then
    if S.extractLsb' 12 12 ≠ 0 then .error .payloadUnused else .ok (.dir (S.extractLsb' 0 12))
  else if S.extractLsb' 30 2 = 0b10#2 then
    .ok (.ptr (S.extractLsb' 0 12) (S.extractLsb' 12 12))
  else
    if S.extractLsb' 16 8 ≠ 0 then .error .payloadUnused else .ok (.idx (S.extractLsb' 0 16))

/-- An unused slot is all zero (R60). -/
def checkUnused (S : Lane) : Except IllFormed Unit :=
  if S = 0 then .ok () else .error .unusedSlot

/-- The kind check (R59) on the operation read. -/
def checkKinds (i : Instr) : Except IllFormed Instr :=
  if i.kindsOk then .ok i else .error .operandKind

/-- An operation with one used slot. -/
def decodeOne (W : OpWord) (mk : Slot → Instr) : Except IllFormed Instr := do
  checkHeader W
  let s0 ← decodeSlot (lane0 W)
  checkUnused (lane1 W)
  checkUnused (lane2 W)
  checkKinds (mk s0)

/-- An operation with two used slots. -/
def decodeTwo (W : OpWord) (mk : Slot → Slot → Instr) : Except IllFormed Instr := do
  checkHeader W
  let s0 ← decodeSlot (lane0 W)
  let s1 ← decodeSlot (lane1 W)
  checkUnused (lane2 W)
  checkKinds (mk s0 s1)

/-- An operation with three used slots. -/
def decodeThree (W : OpWord) (mk : Slot → Slot → Slot → Instr) : Except IllFormed Instr := do
  checkHeader W
  let s0 ← decodeSlot (lane0 W)
  let s1 ← decodeSlot (lane1 W)
  let s2 ← decodeSlot (lane2 W)
  checkKinds (mk s0 s1 s2)

/-- The operation of a word whose opcode `op` is none of the six assigned ones: the row of that opcode, whatever the other
120 bits `rest` hold (R62). In the last row bit 7 of the opcode is set, since the rows above it take every other opcode. -/
def unassignedRow (op : BitVec 8) (rest : BitVec 120) : Instr :=
  if op = 0x00#8 then .nop00 rest
  else if op = 0x07#8 then .nop07 rest
  else if op.extractLsb' 3 5 = 1#5 then .nop08 (op.extractLsb' 0 3) rest
  else if op.extractLsb' 4 4 = 1#4 then .nop10 (op.extractLsb' 0 4) rest
  else if op.extractLsb' 5 3 = 1#3 then .nop20 (op.extractLsb' 0 5) rest
  else if op.extractLsb' 6 2 = 1#2 then .nop40 (op.extractLsb' 0 6) rest
  else .nop80 (op.extractLsb' 0 7) rest

/-- The decoder, total on all words (R55, R63): an operation, or the rule that the word breaks. Whether an unassigned
opcode may stand in a program is STRICT's to say (R62, `Instr.wf`). Where several rules are broken it names the first in
the order of these tests (DESIGN CHOICE, safe, log entry 8). -/
def decode (W : OpWord) : Except IllFormed Instr :=
  if opcode W = 0x01#8 then decodeTwo W .cpy
  else if opcode W = 0x02#8 then decodeThree W .add
  else if opcode W = 0x03#8 then decodeThree W .sub
  else if opcode W = 0x04#8 then decodeThree W .mul
  else if opcode W = 0x05#8 then decodeOne W .rng
  else if opcode W = 0x06#8 then decodeOne W .jmp
  else .ok (unassignedRow (opcode W) (belowOpcode W))

/-! The encoder, from the same tables. -/

/-- The lane of a slot (R52 to R54). -/
def encodeSlot : Slot → Lane
  | .lit v => 0b00#2 ++ 0#6 ++ 0#16 ++ v
  | .dir a => 0b01#2 ++ 0#6 ++ 0#12 ++ a
  | .ptr xc yc => 0b10#2 ++ 0#6 ++ yc ++ xc
  | .idx t => 0b11#2 ++ 0#6 ++ 0#8 ++ t

/-- The word of an assigned opcode and its three lanes (R50, R51). -/
def packWord (op : BitVec 8) (s0 s1 s2 : Lane) : OpWord := op ++ 0#24 ++ s0 ++ s1 ++ s2

/-- The word of an operation (R50 to R56, R62). -/
def encode : Instr → OpWord
  | .cpy dst src => packWord 0x01#8 (encodeSlot dst) (encodeSlot src) 0
  | .add dst a b => packWord 0x02#8 (encodeSlot dst) (encodeSlot a) (encodeSlot b)
  | .sub dst a b => packWord 0x03#8 (encodeSlot dst) (encodeSlot a) (encodeSlot b)
  | .mul dst a b => packWord 0x04#8 (encodeSlot dst) (encodeSlot a) (encodeSlot b)
  | .rng dst => packWord 0x05#8 (encodeSlot dst) 0 0
  | .jmp target => packWord 0x06#8 (encodeSlot target) 0 0
  | .nop00 rest => 0x00#8 ++ rest
  | .nop07 rest => 0x07#8 ++ rest
  | .nop08 op rest => 0b00001#5 ++ op ++ rest
  | .nop10 op rest => 0b0001#4 ++ op ++ rest
  | .nop20 op rest => 0b001#3 ++ op ++ rest
  | .nop40 op rest => 0b01#2 ++ op ++ rest
  | .nop80 op rest => 0b1#1 ++ op ++ rest

/-! Words as bytes: 16 bytes a word, the most significant byte first; an image is the words in order (R49). -/

/-- The 16 bytes of a word, most significant first (R49). -/
def wordBytes (W : OpWord) : List Byte :=
  (List.range 16).map fun k => W.extractLsb' (8 * (15 - k)) 8

/-- The word that a list of bytes writes, most significant byte first (R49). -/
def bytesWord (bs : List Byte) : OpWord :=
  bs.foldl (fun acc b => (acc <<< 8) ||| b.setWidth 128) 0

/-- The bytes of a program image (R49). -/
def programImage (p : List OpWord) : List Byte := p.flatMap wordBytes

/-- The first `n` words of an image. -/
def imageWords : Nat → List Byte → List OpWord
  | 0, _ => []
  | n + 1, bs => bytesWord (bs.take 16) :: imageWords n (bs.drop 16)

/-- The program of an image: none where its length is no multiple of 16 bytes, which is no image (R49). -/
def imageProgram (bs : List Byte) : Option (List OpWord) :=
  if bs.length % 16 = 0 then some (imageWords (bs.length / 16) bs) else none

/-- The operation word that the host's number `w` of `nbits` bits stands for. Bit 0 of `w` is bit 0 of W, as the table
numbers its fields ("127:120" is the opcode); every bit of W above `nbits` is 0 (log entry 9). -/
def tableWord (nbits w : Nat) : OpWord := BitVec.ofNat 128 (w % 2 ^ nbits)

/-- The operation that the decoder reads from a word given as a number; none where it refuses the word. -/
def decodeTableWord (nbits w : Nat) : Option Instr :=
  match decode (tableWord nbits w) with
  | .ok i => some i
  | .error _ => none

end Sys2Proof
end

