-- ==== Sys2Proof/Config.lean ====
section
/-! DEFINITION. The arguments the spec leaves open (spec/00_scope.md rule R12) and the free random byte. -/

namespace Sys2Proof

/-- The parameter CODEC as plain data (R12, R30). `ref` and `bij` are the two codecs the spec names (R33, R34).
`table` is any other codec: `enc` lists the colour of each of the 256 bytes, `dec` lists the byte of some colours (the
first entry of a colour counts) and `other` is the byte of every colour not listed. Every total pair of functions has
such a form. What the functions are stands in Machine/Codec.lean. DESIGN CHOICE, safe (log entry 2). -/
inductive Codec where
  | ref
  | bij
  | table (enc : Vector Colour 256) (dec : List (Colour × Byte)) (other : Byte)
  deriving DecidableEq, Repr

/-- The arguments that are fixed for a whole run (R12): the codec and the STRICT option. -/
structure Config where
  codec  : Codec
  strict : Bool
  deriving DecidableEq, Repr

/-- The defaults of R12: `CODEC_REF`, and STRICT = false. -/
def Config.default : Config := { codec := .ref, strict := false }

/-- FREE VALUE (R78, log entry 5): the byte on the port `rnd` in the `rng` cycle of that number, where the host has
scheduled none. It has no body, so nothing can be proved about a value of it. -/
opaque Config.rndByte : Nat → Byte

end Sys2Proof
end

