-- ==== Sys2Proof/Machine/Codec.lean ====
section
/-! DEFINITION. The cell codec (spec/20_memory.md rules R29 to R34). -/

namespace Sys2Proof

/-- BLANK, the colour of a cell never written since reset (R32). -/
def blankColour : Colour := 0x00000000#32

/-- `encode` of CODEC_REF (R33): b[6:4] in R[7:5], b[3:2] in G[7:6], b[1:0] in B[7:6], alpha 0xFF; b[7] is dropped. -/
def encodeRef (b : Byte) : Colour :=
  b.extractLsb' 4 3 ++ 0#5 ++ b.extractLsb' 2 2 ++ 0#6 ++ b.extractLsb' 0 2 ++ 0#6 ++ 0xFF#8

/-- `decode` of CODEC_REF (R33): bit 7 of the byte is 0. -/
def decodeRef (c : Colour) : Byte :=
  0#1 ++ c.extractLsb' 29 3 ++ c.extractLsb' 22 2 ++ c.extractLsb' 14 2

/-- `encode` of CODEC_BIJ (R34): b[7:5] in R[7:5], b[4:2] in G[7:5], b[1:0] in B[7:6], alpha 0xFF. -/
def encodeBij (b : Byte) : Colour :=
  b.extractLsb' 5 3 ++ 0#5 ++ b.extractLsb' 2 3 ++ 0#5 ++ b.extractLsb' 0 2 ++ 0#6 ++ 0xFF#8

/-- `decode` of CODEC_BIJ (R34). -/
def decodeBij (c : Colour) : Byte :=
  c.extractLsb' 29 3 ++ c.extractLsb' 21 3 ++ c.extractLsb' 14 2

/-- The byte of a colour in a table: its first entry, or the byte of the colours not listed. -/
def tableByte (other : Byte) (c : Colour) : List (Colour × Byte) → Byte
  | [] => other
  | (d, b) :: rest => if d = c then b else tableByte other c rest

/-- `encode : Byte → Colour` (R30). -/
def Codec.encode : Codec → Byte → Colour
  | .ref, b => encodeRef b
  | .bij, b => encodeBij b
  | .table enc _ _, b => enc[b.toNat]'b.isLt

/-- `decode : Colour → Byte` (R30). -/
def Codec.decode : Codec → Colour → Byte
  | .ref, c => decodeRef c
  | .bij, c => decodeBij c
  | .table _ dec other, c => tableByte other c dec

/-- The round trip of a byte through a cell, `rt(b) = decode(encode(b))` (R31). -/
def Codec.rt (k : Codec) (b : Byte) : Byte := k.decode (k.encode b)

/-- The two laws of every codec (R32): BLANK decodes to 0, and 0 survives the round trip. No other law is assumed. -/
def Codec.lawful (k : Codec) : Bool := k.decode blankColour == 0 && k.rt 0 == 0

end Sys2Proof
end

