-- ==== Sys2Proof/Machine/State.lean ====
section
/-! DEFINITION. The state of visualvm CORE with the arguments of its step (spec/10_state.md, spec/00_scope.md rule R12),
the reasons a step can stop, and the state after power-on (spec/10_state.md rule R23). -/

namespace Sys2Proof.Machine

/-- The grid: the cells that do not hold the blank colour, as (linear index, colour), indices strictly rising (R16, R25;
log entry 6). A cell not listed holds BLANK. -/
abbrev Memory := List (Nat × Colour)

/-- The machine. The program counter has no field: it is the bytes of cells 4094 and 4095 (R18). -/
structure State where
  /-- The 4096 colours (R16). -/
  grid   : Memory
  /-- The sequencer's flag, false between cycles (R20; log entry 10). -/
  jumped : Bool
  /-- The program store: P, and L as its length (R21). -/
  prog   : List OpWord
  /-- The arguments that are fixed for a run: CODEC and STRICT (R12). -/
  cfg    : Config
  /-- Bytes that the host puts on the port `rnd` for the coming `rng` cycles, oldest first (R13, R78; log entry 5). -/
  rndIn  : List Byte
  /-- How many bytes have been drawn: the model's own counter behind the free random byte (log entry 5). -/
  draws  : Nat
  deriving DecidableEq, Repr

/-- The machine raises no exception and no operation can fail (spec/60_exceptions.md rule R92), so there is no fault:
nothing raises one. Safe: the spec itself says so. -/
inductive Fault where
  deriving DecidableEq, Repr

/-- What the spec calls `refuse` (spec/00_scope.md section 6, rule R61). Every one is safe: the model gives no step where
the spec gives no meaning. -/
inductive Refusal where
  /-- Raised by an arm of `exec` whose operation has no meaning yet; no arm does. Safe. -/
  | notModelled (mnemonic : String)
  /-- Raised by `step` and by program load: the program store holds more than 65536 words (R11, R21). Safe. -/
  | programTooLong
  /-- Raised by `step` and by program load: the word at that index below L is ill-formed, for that reason (R57 to R62); the
  whole program is refused, whether or not the PC reaches the word (R61). Safe. -/
  | illFormedWord (index : Nat) (why : IllFormed)
  /-- Raised by `step`: the argument CODEC breaks a law that every codec must satisfy (R32). Safe (log entry 3). -/
  | unlawfulCodec
  /-- Raised by the meanings: a slot of a kind that R56 does not allow there, the `refuse` of R68 and R69. The decoder never
  gives such an operation. Safe (log entry 7). -/
  | illFormedOperand
  /-- Raised by the meanings of the unassigned opcodes under STRICT: there is no such operation (R62, R80). `step` refuses
  the program before. Safe. -/
  | unassignedOpcode
  /-- Raised by the bulk load of a stream with more bytes than the grid has cells: the spec gives it no meaning
  (spec/93_implementation_defined.md U25). Safe (log entry 13). -/
  | streamTooLong
  deriving DecidableEq, Repr

/-- The machine at power-on (R23): every cell blank (so the PC is 0), `jumped` 0, no program loaded, the arguments at
their defaults (R12). The two fields behind the random byte are DESIGN CHOICES (log entry 5). -/
def State.reset : State :=
  { grid := [], jumped := false, prog := [], cfg := Config.default, rndIn := [], draws := 0 }

end Sys2Proof.Machine
end

