-- ==== Sys2Proof/Machine/Ops.lean ====
section
/-! DEFINITION. The named operations over the grid, the program counter and the random input (spec/20_memory.md rules R25 to
R28, spec/10_state.md rules R18 and R19, spec/42_rng.md rule R78). The machine has no exception to take and none to return
from (spec/60_exceptions.md rules R92, R96, R97), so no operation here takes one. -/

namespace Sys2Proof.Machine

/-! Cells: x is the column, y the row (R25). -/

/-- The cell (x, y): linear index 64 × y + x, which is y in the high six bits (R25). -/
def cellAt (x y : BitVec 6) : Cell := y ++ x

/-- The column of a cell (R25). -/
def cellX (a : Cell) : BitVec 6 := a.extractLsb' 0 6

/-- The row of a cell (R25). -/
def cellY (a : Cell) : BitVec 6 := a.extractLsb' 6 6

/-- The cell of the program counter's low byte, (62, 63) (R10). -/
def pcLo : Cell := 4094#12

/-- The cell of the program counter's high byte, (63, 63) (R10). -/
def pcHi : Cell := 4095#12

/-! The grid as data. -/

/-- The colour of a cell: BLANK where it is not listed (R23). -/
def Memory.colourAt : Memory → Nat → Colour
  | [], _ => blankColour
  | (k, c) :: rest, a => if k = a then c else Memory.colourAt rest a

/-- The grid with a colour other than BLANK listed for a cell. -/
def Memory.insert : Memory → Nat → Colour → Memory
  | [], a, c => [(a, c)]
  | (k, d) :: rest, a, c =>
    if a < k then (a, c) :: (k, d) :: rest
    else if a = k then (a, c) :: rest
    else (k, d) :: Memory.insert rest a c

/-- `grid[a] <- c`: BLANK takes the cell off the list, so that equal grids are equal lists. -/
def Memory.put (m : Memory) (a : Nat) (c : Colour) : Memory :=
  if c = blankColour then m.filter (fun e => e.1 != a) else m.insert a c

/-- The canonical form: indices strictly rising and below 4096, no cell listed as BLANK. -/
def Memory.wf : Memory → Bool
  | [] => true
  | (k, c) :: rest => decide (k < 4096) && c != blankColour && rest.all (fun e => decide (k < e.1)) && Memory.wf rest

/-! The two memory primitives (R27, R28). -/

/-- The colour of a cell, which is what the display reads (R47, R104). -/
def State.colourAt (s : State) (a : Cell) : Colour := s.grid.colourAt a.toNat

/-- `grid[a] <- c`. -/
def State.setColour (s : State) (a : Cell) (c : Colour) : State := { s with grid := s.grid.put a.toNat c }

/-- `MemRead(a, 1)` (R27). -/
def State.memRead (s : State) (a : Cell) : Byte := s.cfg.codec.decode (s.colourAt a)

/-- `MemWrite(a, 1, v)` (R28). -/
def State.memWrite (s : State) (a : Cell) (v : Byte) : State := s.setColour a (s.cfg.codec.encode v)

/-! The program counter (R18, R19). -/

/-- `PC()`: the 16-bit value low | (high << 8) of the two cells (R18). -/
def State.pc (s : State) : OpIndex := s.memRead pcHi ++ s.memRead pcLo

/-- `pc <- t`: two ordinary cell writes, the low byte first (R19). -/
def State.setPc (s : State) (t : OpIndex) : State :=
  (s.memWrite pcLo (t.extractLsb' 0 8)).memWrite pcHi (t.extractLsb' 8 8)

/-! The random input (R78). -/

/-- The byte on the port `rnd` in this cycle: the one the host scheduled, or a free value (log entry 5). -/
def State.rnd (s : State) : Byte :=
  match s.rndIn with
  | b :: _ => b
  | [] => Config.rndByte s.draws

/-- The byte on `rnd` has been sampled: the next `rng` cycle finds another. -/
def State.drawn (s : State) : State := { s with rndIn := s.rndIn.tail, draws := s.draws + 1 }

end Sys2Proof.Machine
end

