-- ==== Sys2Proof/Machine/Flags.lean ====
section
/-! DEFINITION. The machine has no status flags and no condition codes (spec/10_state.md rule R15). The one flag is
`jumped`, inside the sequencer (R20). -/

namespace Sys2Proof.Machine

/-- `jumped <- 1` (spec/43_jmp_and_nop.md rule R79). -/
def State.setJumped (s : State) : State := { s with jumped := true }

/-- `jumped <- 0` (spec/45_cycle.md rules R84, R88). -/
def State.clearJumped (s : State) : State := { s with jumped := false }

end Sys2Proof.Machine
end

