-- ==== Sys2Proof/Machine/Cycle.lean ====
section
/-! DEFINITION. The parts of a cycle around Execute: which programs the machine admits (spec/30_encoding.md rules R61 and
R62), Fetch, Idle and Advance (spec/45_cycle.md rules R84 to R88). -/

namespace Sys2Proof.Machine

/-- The rule a word breaks in a program of this machine, if any (R57 to R62). -/
def wordProblem (strict : Bool) (W : OpWord) : Option IllFormed :=
  match decode W with
  | .error e => some e
  | .ok i =>
    if !i.kindsOk then some .operandKind
    else if i.assigned || !strict then none
    else some .unassignedUnderStrict

/-- The first ill-formed word of a list whose first word has the index `k`. -/
def firstIllFormed (strict : Bool) : Nat → List OpWord → Option Refusal
  | _, [] => none
  | k, W :: rest =>
    match wordProblem strict W with
    | some why => some (.illFormedWord k why)
    | none => firstIllFormed strict (k + 1) rest

/-- Why a list of words is no program of this machine, if it is none: too long (R11), or an ill-formed word at any index
(R61). DEDUCED, safe (log entry 4). -/
def programProblem (strict : Bool) (p : List OpWord) : Option Refusal :=
  if 65536 < p.length then some .programTooLong else firstIllFormed strict 0 p

/-- Why the machine of this state is refused, if it is (R32, R61, R84). -/
def State.problem (s : State) : Option Refusal :=
  if s.cfg.codec.lawful then programProblem s.cfg.strict s.prog else some .unlawfulCodec

/-- Fetch (R85): the word at the PC; none is the idle cycle, L = 0 or PC ≥ L (R86). The bound is tested first. -/
def State.fetch (s : State) : Option OpWord :=
  if s.prog.length = 0 ∨ s.prog.length ≤ s.pc.toNat then none else s.prog[s.pc.toNat]?

/-- Advance (R88): after a jump clear `jumped` and leave the PC as written; otherwise re-read the PC, add one modulo 65536
and write both bytes. -/
def State.advance (s : State) : State :=
  if s.jumped then s.clearJumped else s.setPc (s.pc + 1)

/-- The Advance step after an Execute step that gave a next state. -/
def thenAdvance : Host.Outcome State Fault Refusal → Host.Outcome State Fault Refusal
  | .next t => .next t.advance
  | .fault r => .fault r
  | .refused r => .refused r

/-- The program store with the word `W` at index `k`: put in its place, or after the words there are. Where the store is
too short the indices between take `W` too (log entry 11). -/
def placeWord (p : List OpWord) (k : Nat) (W : OpWord) : List OpWord :=
  if k < p.length then p.set k W else p ++ List.replicate (k + 1 - p.length) W

end Sys2Proof.Machine
end

