-- ==== Sys2Proof/Machine/Operands.lean ====
section
/-! DEFINITION. Operand resolution: the three addressing modes and the jump index (spec/40_operands_and_cpy.md rules R68 to
R71, spec/43_jmp_and_nop.md rule R79). None of these changes the state. -/

namespace Sys2Proof.Machine

/-- A coordinate byte masked into the grid, `byte & 63` (R70). -/
def coordinate (b : Byte) : BitVec 6 := b.extractLsb' 0 6

/-- `target(s)` of a pointer whose x-cell and y-cell are given (R70). -/
def State.target (s : State) (xc yc : Cell) : Cell :=
  cellAt (coordinate (s.memRead xc)) (coordinate (s.memRead yc))

/-- `value(s)` (R68); none is the rule's `refuse`. -/
def State.value? (s : State) : Slot → Option Byte
  | .lit v => some v
  | .dir a => some (s.memRead a)
  | .ptr xc yc => some (s.memRead (s.target xc yc))
  | .idx _ => none

/-- `dest(s)` (R69); none is the rule's `refuse`. -/
def State.dest? (s : State) : Slot → Option Cell
  | .lit _ => none
  | .dir a => some a
  | .ptr xc yc => some (s.target xc yc)
  | .idx _ => none

/-- The operation index of a jump slot (R79); the other kinds have none (R59). -/
def indexOf? : Slot → Option OpIndex
  | .lit _ => none
  | .dir _ => none
  | .ptr _ _ => none
  | .idx t => some t

/-- The end of every storing operation: all reads are done in `s`, then the one write (R71). -/
def storeByte (dst : Slot) (v : Option Byte) (s : State) : Host.Outcome State Fault Refusal :=
  match v, s.dest? dst with
  | some v, some a => .next (s.memWrite a v)
  | some _, none => .refused .illFormedOperand
  | none, _ => .refused .illFormedOperand

end Sys2Proof.Machine
end

