-- ==== Sys2Proof/Machine/Arithmetic.lean ====
section
/-! DEFINITION. The operations `add`, `sub` and `mul` on unsigned bytes (spec/41_arithmetic.md rules R73 to R76). Each result
is computed exactly and then reduced modulo 256. -/

namespace Sys2Proof.Machine

/-- (a + b) mod 256 (R73, R74). -/
def addByte (a b : Byte) : Byte := BitVec.ofNat 8 (a.toNat + b.toNat)

/-- (a − b) mod 256, the non-negative remainder (R73, R75). -/
def subByte (a b : Byte) : Byte := BitVec.ofInt 8 ((a.toNat : Int) - (b.toNat : Int))

/-- (a × b) mod 256, the low byte of the product (R73, R76). -/
def mulByte (a b : Byte) : Byte := BitVec.ofNat 8 (a.toNat * b.toNat)

/-- The shared shape: two sources, a function of bytes, one destination (R74 to R76). -/
def arithmetic (f : Byte → Byte → Byte) (dst a b : Slot) (s : State) : Host.Outcome State Fault Refusal :=
  storeByte dst ((s.value? a).bind fun va => (s.value? b).map fun vb => f va vb) s

/-- `add dst, a, b` (R74). -/
def execAdd (dst a b : Slot) (s : State) : Host.Outcome State Fault Refusal :=
  arithmetic addByte dst a b s

/-- `sub dst, a, b` (R75). -/
def execSub (dst a b : Slot) (s : State) : Host.Outcome State Fault Refusal :=
  arithmetic subByte dst a b s

/-- `mul dst, a, b` (R76). -/
def execMul (dst a b : Slot) (s : State) : Host.Outcome State Fault Refusal :=
  arithmetic mulByte dst a b s

end Sys2Proof.Machine
end

