-- ==== Sys2Proof/Machine/Control.lean ====
section
/-! DEFINITION. The operation `jmp` (spec/43_jmp_and_nop.md rule R79) and the unassigned opcodes (R80). -/

namespace Sys2Proof.Machine

/-- `jmp target`: both PC cells through the codec, low byte first, then `jumped <- 1` (R79). -/
def execJmp (target : Slot) (s : State) : Host.Outcome State Fault Refusal :=
  match indexOf? target with
  | some t => .next (s.setPc t).setJumped
  | none => .refused .illFormedOperand

/-- An unassigned opcode: nothing with STRICT = false; with STRICT = true there is no such operation (R62, R80). -/
def unassigned (s : State) : Host.Outcome State Fault Refusal :=
  if s.cfg.strict then .refused .unassignedOpcode else .next s

/-- Row nop.unassigned.00 (R80). -/
def execNop00 (_rest : BitVec 120) (s : State) : Host.Outcome State Fault Refusal := unassigned s

/-- Row nop.unassigned.07 (R80). -/
def execNop07 (_rest : BitVec 120) (s : State) : Host.Outcome State Fault Refusal := unassigned s

/-- Row nop.unassigned.08-0F (R80). -/
def execNop08 (_op : BitVec 3) (_rest : BitVec 120) (s : State) : Host.Outcome State Fault Refusal := unassigned s

/-- Row nop.unassigned.10-1F (R80). -/
def execNop10 (_op : BitVec 4) (_rest : BitVec 120) (s : State) : Host.Outcome State Fault Refusal := unassigned s

/-- Row nop.unassigned.20-3F (R80). -/
def execNop20 (_op : BitVec 5) (_rest : BitVec 120) (s : State) : Host.Outcome State Fault Refusal := unassigned s

/-- Row nop.unassigned.40-7F (R80). -/
def execNop40 (_op : BitVec 6) (_rest : BitVec 120) (s : State) : Host.Outcome State Fault Refusal := unassigned s

/-- Row nop.unassigned.80-FF (R80). -/
def execNop80 (_op : BitVec 7) (_rest : BitVec 120) (s : State) : Host.Outcome State Fault Refusal := unassigned s

end Sys2Proof.Machine
end

