-- ==== Sys2Proof/Machine/Copy.lean ====
section
/-! DEFINITION. The operation `cpy` (spec/40_operands_and_cpy.md rule R72). -/

namespace Sys2Proof.Machine

/-- `cpy dst, src` (R72). -/
def execCpy (dst src : Slot) (s : State) : Host.Outcome State Fault Refusal :=
  storeByte dst (s.value? src) s

end Sys2Proof.Machine
end

