-- ==== Sys2Proof/Machine/Random.lean ====
section
/-! DEFINITION. The operation `rng` (spec/42_rng.md rules R77 and R78). -/

namespace Sys2Proof.Machine

/-- `rng dst`: store the byte on the port `rnd`, sampled once (R77; `rndIn` and `draws` are log entry 5). -/
def execRng (dst : Slot) (s : State) : Host.Outcome State Fault Refusal :=
  storeByte dst (some s.rnd) s.drawn

end Sys2Proof.Machine
end

