-- ==== Sys2Proof/Machine/Dispatch.lean ====
section
/-! DEFINITION. The Execute step's dispatch (spec/45_cycle.md rule R87): one meaning per operation. -/

namespace Sys2Proof.Machine

def exec (i : Instr) (s : State) : Host.Outcome State Fault Refusal :=
  match i with
  | .cpy dst src => Sys2Proof.Machine.execCpy dst src s
  | .add dst a b => Sys2Proof.Machine.execAdd dst a b s
  | .sub dst a b => Sys2Proof.Machine.execSub dst a b s
  | .mul dst a b => Sys2Proof.Machine.execMul dst a b s
  | .rng dst => Sys2Proof.Machine.execRng dst s
  | .jmp target => Sys2Proof.Machine.execJmp target s
  | .nop00 rest => Sys2Proof.Machine.execNop00 rest s
  | .nop07 rest => Sys2Proof.Machine.execNop07 rest s
  | .nop08 op rest => Sys2Proof.Machine.execNop08 op rest s
  | .nop10 op rest => Sys2Proof.Machine.execNop10 op rest s
  | .nop20 op rest => Sys2Proof.Machine.execNop20 op rest s
  | .nop40 op rest => Sys2Proof.Machine.execNop40 op rest s
  | .nop80 op rest => Sys2Proof.Machine.execNop80 op rest s

end Sys2Proof.Machine
end

