-- ==== Sys2Proof/Machine/Step.lean ====
section
/-! DEFINITION. One cycle (spec/45_cycle.md rule R84), and a word placed where the next Fetch finds it. -/

namespace Sys2Proof.Machine

/-- One cycle (R84): refuse what is no machine of this spec (R61), Fetch, Idle, Execute, Advance. -/
def step (s : State) : Host.Outcome State Fault Refusal :=
  match s.problem with
  | some r => .refused r
  | none =>
    match s.fetch with
    | none => .next s
    | some W =>
      match decode W with
      | .error why => .refused (.illFormedWord s.pc.toNat why)
      | .ok i => thenAdvance (exec i s.clearJumped)

/-- `s` with the word `w` of `nbits` bits in the program store at the index that the next Fetch reads: it stands for the
load of a program from outside the machine (log entries 1 and 11). -/
def State.withFetchWord (s : State) (nbits w : Nat) : State :=
  { s with prog := placeWord s.prog s.pc.toNat (tableWord nbits w) }

end Sys2Proof.Machine
end

