-- ==== Sys2Proof/Machine/Assembler.lean ====
section
/-! DEFINITION. The assembly syntax and its mapping to operation words (spec/30_encoding.md rules R64 to R67). The assembler is
host software, no part of the core (spec/00_scope.md rule R4 (b)): nothing in `step` rests on this file. What the spec leaves
undecided here is refused or named in log entry 15. -/

namespace Sys2Proof.Machine

/-- Why a text does not assemble (R67). -/
inductive AsmError where
  /-- A `$` or `@` token that is not two octal numbers with a comma between (R65, R67; the decimal marker has no spelling). -/
  | malformedAddress
  /-- A coordinate above 63 (R67). -/
  | coordinateRange
  /-- A token that is neither an address, a pointer, a label nor a decimal number, `-5` and `5,6` among them (R65; log
  entry 15). -/
  | malformedLiteral
  /-- A reference to a label that no line defines (R67). -/
  | undefinedLabel (name : List Char)
  /-- A reference to a label whose operation index is above 65535 (R67; log entry 15). -/
  | labelRange
  /-- Two lines that define one label: not decided by the spec (U27; log entry 15). -/
  | duplicateLabel (name : List Char)
  /-- A line with no token: not decided by the spec (U27; log entry 15). -/
  | blankLine
  /-- A known mnemonic with the wrong number of operands (R67). -/
  | operandCount
  /-- A known mnemonic with an operand kind that R56 does not allow (R67). -/
  | operandKind
  /-- An unknown mnemonic under STRICT (R67). -/
  | unknownMnemonic
  /-- More than 65536 operations (R67). -/
  | programTooLong
  deriving DecidableEq, Repr

/-! Text to lines to tokens (R64, R65). -/

/-- The pieces of a text between the characters that `p` holds of, empty pieces included. -/
def splitWhen (p : Char → Bool) : List Char → List (List Char)
  | [] => [[]]
  | c :: rest =>
    if p c then [] :: splitWhen p rest
    else
      match splitWhen p rest with
      | [] => [[c]]
      | piece :: more => (c :: piece) :: more

/-- The text's lines: "newline-separated lines" (R64). DESIGN CHOICE, safe (log entry 15): a newline at the end of the text
separates a last line, which is blank. -/
def sourceLines (text : List Char) : List (List Char) := splitWhen (· == '\n') text

/-- White space inside a line: DESIGN CHOICE, space, tab and carriage return (log entry 15). -/
def isBlank (c : Char) : Bool := c == ' ' || c == '\t' || c == '\r'

/-- A comma that ends a token is a separator and is stripped (R65). DESIGN CHOICE, safe (log entry 15): one comma only, so a
second ending comma stays in the token, and so does a comma at the start of a token or inside one that is no `$` or `@` token;
such a token is then a malformed literal, an undefined label or an unknown mnemonic. A token that is one comma vanishes. -/
def stripComma (token : List Char) : List Char :=
  if token.getLast? = some ',' then token.dropLast else token

/-- The tokens of a line: split on white space, ending commas stripped, empty tokens left out (R65). -/
def tokens (line : List Char) : List (List Char) :=
  ((splitWhen isBlank line).map stripComma).filter fun t => !t.isEmpty

/-- A letter or the underscore. -/
def identifierStart (c : Char) : Bool := c.isAlpha || c == '_'

/-- An identifier: DESIGN CHOICE, a letter or underscore, then letters, digits and underscores (log entry 15). -/
def isIdentifier : List Char → Bool
  | [] => false
  | c :: rest => identifierStart c && rest.all fun d => identifierStart d || d.isDigit

/-- The label that a line defines: "an identifier followed by a trailing colon" and nothing else (R64).
DESIGN CHOICE, safe (log entry 15): with anything before or after the two, or an identifier of other characters, it is an
instruction line. -/
def labelOfLine (line : List Char) : Option (List Char) :=
  if line.getLast? = some ':' ∧ isIdentifier line.dropLast then some line.dropLast else none

/-! Numbers. -/

/-- A digit below the base. -/
def digitBelow (base : Nat) (c : Char) : Option Nat :=
  if '0' ≤ c ∧ c.toNat < '0'.toNat + base then some (c.toNat - '0'.toNat) else none

/-- The digits of a number in a base up to ten, after the value read so far. -/
def digits (base : Nat) : Nat → List Char → Option Nat
  | n, [] => some n
  | n, c :: rest =>
    match digitBelow base c with
    | some d => digits base (base * n + d) rest
    | none => none

/-- A number of at least one digit. -/
def number (base : Nat) : List Char → Option Nat
  | [] => none
  | c :: rest => digits base 0 (c :: rest)

/-! Operand tokens (R65). -/

/-- The cell that the coordinate text of a `$` or `@` token names: octal x, a comma, octal y (R65), any number of digits
(N7). DESIGN CHOICE, safe (log entry 15): the radix marker has no spelling, so every other character is refused. -/
def coordinates (text : List Char) : Except AsmError Cell :=
  match splitWhen (· == ',') text with
  | [x, y] =>
    match number 8 x, number 8 y with
    | some x, some y =>
      if x < 64 ∧ y < 64 then .ok (BitVec.ofNat 12 (64 * y + x)) else .error .coordinateRange
    | _, _ => .error .malformedAddress
  | _ => .error .malformedAddress

/-- The pointer of a literal address A: xc = A, yc = (A − 1) mod 4096 (R66). -/
def pointerAt (a : Cell) : Slot := .ptr a (a - 1)

/-- The operation index of a label. An index above 65535 fails (R67). DESIGN CHOICE, safe (log entry 15): it fails where an
operand refers to the label; a label at index 65536 that no operand names is accepted. -/
def labelIndex (labels : List (List Char × Nat)) (name : List Char) : Except AsmError OpIndex :=
  match labels.lookup name with
  | some k => if k < 65536 then .ok (BitVec.ofNat 16 k) else .error .labelRange
  | none => .error (.undefinedLabel name)

/-- An operand token, classified by its leading character (R65). A literal is taken modulo 256. DESIGN CHOICE, safe (log
entry 15): a literal is decimal digits alone, so a negative literal such as `-5` is refused as malformedLiteral. -/
def operand (labels : List (List Char × Nat)) : List Char → Except AsmError Slot
  | '$' :: rest => (coordinates rest).map .dir
  | '@' :: rest => (coordinates rest).map pointerAt
  | ':' :: name => (labelIndex labels name).map .idx
  | token =>
    match number 10 token with
    | some n => .ok (.lit (BitVec.ofNat 8 n))
    | none => .error .malformedLiteral

/-- The operand tokens of a line, in order. -/
def operands (labels : List (List Char × Nat)) : List (List Char) → Except AsmError (List Slot)
  | [] => .ok []
  | t :: rest =>
    match operand labels t with
    | .error e => .error e
    | .ok s => (operands labels rest).map (s :: ·)

/-! Instruction lines (R65, R67). -/

/-- The six mnemonics (R55), and the unknown one. -/
inductive Mnemonic where
  | cpy | add | sub | mul | rng | jmp | unknown
  deriving DecidableEq, Repr

/-- The mnemonic of a token, letter for letter (log entry 15). -/
def mnemonicOf (token : List Char) : Mnemonic :=
  if token = ['c', 'p', 'y'] then .cpy
  else if token = ['a', 'd', 'd'] then .add
  else if token = ['s', 'u', 'b'] then .sub
  else if token = ['m', 'u', 'l'] then .mul
  else if token = ['r', 'n', 'g'] then .rng
  else if token = ['j', 'm', 'p'] then .jmp
  else .unknown

/-- The operation of a mnemonic and its operands: count and kinds are checked (R67); an unknown mnemonic becomes opcode
0x00 with all other bits zero, or fails under STRICT (R67). -/
def operation (strict : Bool) : Mnemonic → List Slot → Except AsmError Instr
  | .unknown, _ => if strict then .error .unknownMnemonic else .ok (.nop00 0)
  | .cpy, [dst, src] => if (Instr.cpy dst src).kindsOk then .ok (.cpy dst src) else .error .operandKind
  | .add, [dst, a, b] => if (Instr.add dst a b).kindsOk then .ok (.add dst a b) else .error .operandKind
  | .sub, [dst, a, b] => if (Instr.sub dst a b).kindsOk then .ok (.sub dst a b) else .error .operandKind
  | .mul, [dst, a, b] => if (Instr.mul dst a b).kindsOk then .ok (.mul dst a b) else .error .operandKind
  | .rng, [dst] => if (Instr.rng dst).kindsOk then .ok (.rng dst) else .error .operandKind
  | .jmp, [target] => if (Instr.jmp target).kindsOk then .ok (.jmp target) else .error .operandKind
  | _, _ => .error .operandCount

/-- The operation of an instruction line (R65). DESIGN CHOICE, safe (log entry 15): its operand tokens are classified
before its mnemonic is looked at, and the first bad one is reported. -/
def assembleLine (strict : Bool) (labels : List (List Char × Nat)) (line : List Char) : Except AsmError Instr :=
  match tokens line with
  | [] => .error .blankLine
  | m :: rest =>
    match operands labels rest with
    | .error e => .error e
    | .ok slots => operation strict (mnemonicOf m) slots

/-! The two passes (R64). -/

/-- The label pass: every label with the operation index it will occupy, label lines not counted (R64). -/
def labelPass : Nat → List (List Char) → Except AsmError (List (List Char × Nat))
  | _, [] => .ok []
  | k, line :: rest =>
    match labelOfLine line with
    | none => labelPass (k + 1) rest
    | some name =>
      match labelPass k rest with
      | .error e => .error e
      | .ok labels => if labels.any (·.1 == name) then .error (.duplicateLabel name) else .ok ((name, k) :: labels)

/-- The emit pass: every line that defines no label is one operation (R64). -/
def emitPass (strict : Bool) (labels : List (List Char × Nat)) : List (List Char) → Except AsmError (List Instr)
  | [] => .ok []
  | line :: rest =>
    match labelOfLine line with
    | some _ => emitPass strict labels rest
    | none =>
      match assembleLine strict labels line with
      | .error e => .error e
      | .ok i => (emitPass strict labels rest).map (i :: ·)

/-- The program of a source text (R64 to R67). -/
def assembleText (strict : Bool) (text : List Char) : Except AsmError (List OpWord) :=
  match labelPass 0 (sourceLines text) with
  | .error e => .error e
  | .ok labels =>
    match emitPass strict labels (sourceLines text) with
    | .error e => .error e
    | .ok ops => if 65536 < ops.length then .error .programTooLong else .ok (ops.map encode)

end Sys2Proof.Machine
end

