-- ==== Sys2Proof/Machine/HostEvents.lean ====
section
/-! DEFINITION. The host's events on the block (spec/60_exceptions.md rules R100 to R105) and the bulk loader's streams
(spec/20_memory.md rule R46). They happen between cycles, beside `step`. -/

namespace Sys2Proof.Machine

/-- An edge of `clk` with the input `tick`: one cycle where it is 1, nothing otherwise (R13, R100, R109). The scheduler's
run flag and interval are outside the block (log entry 14). -/
def clockEdge (tick : Bool) (s : State) : Host.Outcome State Fault Refusal :=
  if tick then step s else .next s

/-- Program load (R101): the whole program store is replaced and both PC cells are written with 0; a program that is none
of this machine is refused. -/
def loadProgram (p : List OpWord) (s : State) : Host.Outcome State Fault Refusal :=
  match programProblem s.cfg.strict p with
  | some r => .refused r
  | none => .next (({ s with prog := p }).setPc 0)

/-- Grid reset (R102): every cell blank, `jumped` 0 (R23); the program store stays (R102), and the random input too (log
entry 16). -/
def gridReset (s : State) : State := { s with grid := [], jumped := false }

/-- Host write (R103): `MemWrite(i, 1, v)`. -/
def hostWrite (i : Cell) (v : Byte) (s : State) : State := s.memWrite i v

/-- The bytes of a stream from the cell with index `k` on: byte by byte in raster order (R46). -/
def packFrom : Nat → List Byte → State → State
  | _, [], s => s
  | k, v :: rest, s => packFrom (k + 1) rest (hostWrite (BitVec.ofNat 12 k) v s)

/-- Bulk load (R46): the stream is packed row-major into the grid from index 0, through the codec. A stream longer than the
grid has no meaning in the spec (U25) and is refused (log entry 13). -/
def bulkLoad (bytes : List Byte) (s : State) : Host.Outcome State Fault Refusal :=
  if 4096 < bytes.length then .refused .streamTooLong else .next (packFrom 0 bytes s)

/-- The value of a hexadecimal character. Both cases are taken (log entry 13). -/
def hexDigit (c : Char) : Option Nat :=
  if '0' ≤ c ∧ c ≤ '9' then some (c.toNat - '0'.toNat)
  else if 'a' ≤ c ∧ c ≤ 'f' then some (c.toNat - 'a'.toNat + 10)
  else if 'A' ≤ c ∧ c ≤ 'F' then some (c.toNat - 'A'.toNat + 10)
  else none

/-- A hex-pair stream: two hex characters per byte (R46); none for an odd count or another character (U25). -/
def hexPairs : List Char → Option (List Byte)
  | [] => some []
  | [_] => none
  | hi :: lo :: rest =>
    match hexDigit hi, hexDigit lo, hexPairs rest with
    | some h, some l, some bs => some (BitVec.ofNat 8 (16 * h + l) :: bs)
    | _, _, _ => none

/-- A raw-text stream: one character code per byte (R46); none for a code above 255 (U25). -/
def rawText : List Char → Option (List Byte)
  | [] => some []
  | c :: rest =>
    if c.toNat < 256 then (rawText rest).map (BitVec.ofNat 8 c.toNat :: ·) else none

/-- What happens to the block, one after another (R105): a run of the machine is a list of these. The display read
(R104) changes nothing and is `State.colourAt`. -/
inductive HostEvent where
  | clock (tick : Bool)
  | load (p : List OpWord)
  | reset
  | write (i : Cell) (v : Byte)
  | bulk (bytes : List Byte)
  deriving DecidableEq, Repr

/-- One event (R100 to R103). -/
def applyEvent : HostEvent → State → Host.Outcome State Fault Refusal
  | .clock tick, s => clockEdge tick s
  | .load p, s => loadProgram p s
  | .reset, s => .next (gridReset s)
  | .write i v, s => .next (hostWrite i v s)
  | .bulk bytes, s => bulkLoad bytes s

/-- Events one after another, to the first refusal (R95, R105). -/
def runEvents : List HostEvent → State → Host.Outcome State Fault Refusal
  | [], s => .next s
  | e :: rest, s =>
    match applyEvent e s with
    | .next t => runEvents rest t
    | .fault r => .fault r
    | .refused r => .refused r

end Sys2Proof.Machine
end

