-- ==== Sys2Proof/Machine/Trace.lean ====
section
/-! DEFINITION. The grid accesses of one cycle in their order (spec/45_cycle.md rule R91), which is all that a display can see
of a cycle's inside (spec/20_memory.md rule R41) and what the grid ports carry (spec/00_scope.md rule R13). It is written
from R91 beside `step` and changes nothing (log entry 12). -/

namespace Sys2Proof.Machine

/-- One access on the grid ports: a cell and the colour that comes out or goes in (R13). -/
inductive Access where
  | read (a : Cell) (c : Colour)
  | write (a : Cell) (c : Colour)
  deriving DecidableEq, Repr

/-- A read of a cell in the state `s`. -/
def State.readAccess (s : State) (a : Cell) : Access := .read a (s.colourAt a)

/-- The cells a source slot reads: of a pointer its x-cell, its y-cell, then the target (R91). -/
def sourceCells (s : State) : Slot → List Cell
  | .lit _ => []
  | .dir a => [a]
  | .ptr xc yc => [xc, yc, s.target xc yc]
  | .idx _ => []

/-- The cells a destination slot reads: of a pointer its x-cell, then its y-cell (R91). -/
def destCells : Slot → List Cell
  | .lit _ => []
  | .dir _ => []
  | .ptr xc yc => [xc, yc]
  | .idx _ => []

/-- The cells that Execute reads, in order: S1, S2, then a pointer destination S0 (R91 (2)). -/
def executeReads (s : State) : Instr → List Cell
  | .cpy dst src => sourceCells s src ++ destCells dst
  | .add dst a b => sourceCells s a ++ sourceCells s b ++ destCells dst
  | .sub dst a b => sourceCells s a ++ sourceCells s b ++ destCells dst
  | .mul dst a b => sourceCells s a ++ sourceCells s b ++ destCells dst
  | .rng dst => destCells dst
  | .jmp _ => []
  | .nop00 _ => []
  | .nop07 _ => []
  | .nop08 _ _ => []
  | .nop10 _ _ => []
  | .nop20 _ _ => []
  | .nop40 _ _ => []
  | .nop80 _ _ => []

/-- One destination cell and its byte. -/
def oneWrite (s : State) (dst : Slot) (v : Option Byte) : List (Cell × Byte) :=
  match s.dest? dst, v with
  | some a, some v => [(a, v)]
  | some _, none => []
  | none, _ => []

/-- The bytes that Execute writes, in order: one destination cell, or for `jmp` cell 4094 then cell 4095 (R91 (3)). -/
def executeWrites (s : State) : Instr → List (Cell × Byte)
  | .cpy dst src => oneWrite s dst (s.value? src)
  | .add dst a b => oneWrite s dst ((s.value? a).bind fun x => (s.value? b).map (x + ·))
  | .sub dst a b => oneWrite s dst ((s.value? a).bind fun x => (s.value? b).map (x - ·))
  | .mul dst a b => oneWrite s dst ((s.value? a).bind fun x => (s.value? b).map (x * ·))
  | .rng dst => oneWrite s dst (some s.rnd)
  | .jmp (.idx t) => [(pcLo, t.extractLsb' 0 8), (pcHi, t.extractLsb' 8 8)]
  | .jmp (.lit _) => []
  | .jmp (.dir _) => []
  | .jmp (.ptr _ _) => []
  | .nop00 _ => []
  | .nop07 _ => []
  | .nop08 _ _ => []
  | .nop10 _ _ => []
  | .nop20 _ _ => []
  | .nop40 _ _ => []
  | .nop80 _ _ => []

/-- The operation is a jump, after which Advance writes nothing (R88). -/
def isJump : Instr → Bool
  | .jmp _ => true
  | .cpy _ _ => false
  | .add _ _ _ => false
  | .sub _ _ _ => false
  | .mul _ _ _ => false
  | .rng _ => false
  | .nop00 _ => false
  | .nop07 _ => false
  | .nop08 _ _ => false
  | .nop10 _ _ => false
  | .nop20 _ _ => false
  | .nop40 _ _ => false
  | .nop80 _ _ => false

/-- Cells written one after another through the codec. -/
def State.writeAll (s : State) : List (Cell × Byte) → State
  | [] => s
  | (a, v) :: rest => (s.memWrite a v).writeAll rest

/-- The write accesses of a list of byte writes. -/
def writeAccesses (s : State) (ws : List (Cell × Byte)) : List Access :=
  ws.map fun w => .write w.1 (s.cfg.codec.encode w.2)

/-- The two writes of an Advance step that follows no jump (R88): the PC re-read from `s`, plus one, low byte first. -/
def advanceWrites (s : State) : List (Cell × Byte) :=
  [(pcLo, (s.pc + 1).extractLsb' 0 8), (pcHi, (s.pc + 1).extractLsb' 8 8)]

/-- The accesses of Execute and Advance for an operation (R91 (2) to (4)). -/
def operationAccesses (s : State) (i : Instr) : List Access :=
  let t := s.writeAll (executeWrites s i)
  (executeReads s i).map s.readAccess ++ writeAccesses s (executeWrites s i) ++
    if isJump i then [] else [t.readAccess pcLo, t.readAccess pcHi] ++ writeAccesses s (advanceWrites t)

/-- The accesses of the whole cycle (R91): Fetch reads cells 4094 and 4095; an idle cycle makes no other. A machine that
`step` refuses makes none. -/
def State.cycleAccesses (s : State) : List Access :=
  match s.problem with
  | some _ => []
  | none =>
    [s.readAccess pcLo, s.readAccess pcHi] ++
      match s.fetch with
      | none => []
      | some W =>
        match decode W with
        | .error _ => []
        | .ok i => operationAccesses s i

/-- The grid after an access: a write lands whole, a read changes nothing (R37, R41). -/
def Memory.after (m : Memory) : Access → Memory
  | .read _ _ => m
  | .write a c => m.put a.toNat c

/-- The grid after a list of accesses. -/
def Memory.replay (m : Memory) : List Access → Memory
  | [] => m
  | x :: rest => (m.after x).replay rest

/-- The grids that a display refreshed during the cycle can see, in order: before the cycle and after each access (R41). -/
def displayViews (m : Memory) : List Access → List Memory
  | [] => [m]
  | x :: rest => m :: displayViews (m.after x) rest

/-- The cells that a list of accesses writes, in order. -/
def writtenCells : List Access → List Cell
  | [] => []
  | .read _ _ :: rest => writtenCells rest
  | .write a _ :: rest => a :: writtenCells rest

/-- The port `p_len`: L in 17 bits (R13). -/
def State.pLen (s : State) : BitVec 17 := BitVec.ofNat 17 s.prog.length

/-- The port `p_addr`: the operation index presented to the program store (R13). -/
def State.pAddr (s : State) : OpIndex := s.pc

end Sys2Proof.Machine
end

