-- ==== Sys2Proof/Safety.lean ====
section
/-! DEFINITION. What holds between cycles in every state the machine can be in: the terms in which claims speak of a run. -/

namespace Sys2Proof.Machine

/-- Every colour of the grid is BLANK or a value of `encode` (spec/10_state.md rule R17). -/
def State.coded (s : State) : Prop :=
  ∀ a : Cell, s.colourAt a = blankColour ∨ ∃ v : Byte, s.colourAt a = s.cfg.codec.encode v

/-- The machine between cycles: the grid in its canonical form (the model's, log entry 6), `jumped` clear (R20), every colour a coded one (R17), the
codec lawful (R32) and the program one of this machine (R61). -/
structure State.Ready (s : State) : Prop where
  canonical : s.grid.wf = true
  notJumped : s.jumped = false
  coded     : s.coded
  admitted  : s.problem = none

/-- The machine idles: no program, or the PC not below L (spec/45_cycle.md rule R86). -/
def State.idle (s : State) : Bool := decide (s.prog.length ≤ s.pc.toNat)

end Sys2Proof.Machine
end

