-- ==== Sys2Proof/Certificates/Slice0/Obligations.lean ====
section
/-! DEFINITION. The statements about the model, from the numbered rules of spec/. Each docstring names its rule. -/

namespace Sys2Proof.Claims

open Sys2Proof Sys2Proof.Machine

/-! Words the statements share. -/

/-- `t` is `s` after one cell write: cell `a` holds `encode(v)` and reads `rt(v)`, every other cell as before. -/
def Wrote (s t : State) (a : Cell) (v : Byte) : Prop :=
  t.colourAt a = s.cfg.codec.encode v ∧ t.memRead a = s.cfg.codec.rt v ∧
    ∀ b : Cell, b ≠ a → t.colourAt b = s.colourAt b ∧ t.memRead b = s.memRead b

/-- Everything but the grid is as before. -/
def SameButGrid (s t : State) : Prop :=
  t.jumped = s.jumped ∧ t.prog = s.prog ∧ t.cfg = s.cfg ∧ t.rndIn = s.rndIn ∧ t.draws = s.draws

/-- `t` is `s` after `pc <- x`: both PC cells hold the encoded bytes of `x`, every other cell as before. -/
def PcWritten (s t : State) (x : OpIndex) : Prop :=
  t.colourAt pcLo = s.cfg.codec.encode (x.extractLsb' 0 8) ∧ t.colourAt pcHi = s.cfg.codec.encode (x.extractLsb' 8 8) ∧
    ∀ b : Cell, b ≠ pcLo → b ≠ pcHi → t.colourAt b = s.colourAt b ∧ t.memRead b = s.memRead b

/-- A 16-bit value with both bytes passed through the codec (R19, R115). -/
def throughCodec (k : Codec) (x : OpIndex) : OpIndex := k.rt (x.extractLsb' 8 8) ++ k.rt (x.extractLsb' 0 8)

/-- The cycle of `s` executes the operation `i`: the machine is admitted and the word at the PC decodes to `i`. -/
def Executes (s : State) (i : Instr) : Prop :=
  s.problem = none ∧ ∃ W, s.prog[s.pc.toNat]? = some W ∧ decode W = .ok i

/-- The two machines differ in colours alone: every cell decodes to the same byte, all else is equal. -/
def SameBytes (s t : State) : Prop := SameButGrid s t ∧ ∀ a : Cell, t.memRead a = s.memRead a

/-- The two outcomes agree: both go on, in states related by `R`, or both stop for the same reason. -/
def Agree (R : State → State → Prop) : Host.Outcome State Fault Refusal → Host.Outcome State Fault Refusal → Prop
  | .next s, .next t => R s t
  | .refused q, .refused r => q = r
  | .next _, .refused _ => False
  | .refused _, .next _ => False
  | .fault _, _ => False
  | _, .fault _ => False

/-- A used slot passes R58 and R59: reserved bits zero, its kind one of `kinds`, the payload bits of other kinds zero. -/
def laneOk (kinds : List Nat) (S : Lane) : Prop :=
  S.toNat / 2 ^ 24 % 64 = 0 ∧ S.toNat / 2 ^ 30 ∈ kinds ∧
    (S.toNat / 2 ^ 30 = 0 → S.toNat / 2 ^ 8 % 2 ^ 16 = 0) ∧ (S.toNat / 2 ^ 30 = 1 → S.toNat / 2 ^ 12 % 2 ^ 12 = 0) ∧
      (S.toNat / 2 ^ 30 = 3 → S.toNat / 2 ^ 16 % 2 ^ 8 = 0)

/-- The checks R57 to R60 on a word of an assigned opcode, with the kinds and the unused slots of R56. -/
def wordOk (W : OpWord) : Prop :=
  W.toNat / 2 ^ 96 % 2 ^ 24 = 0 ∧
    ((opcode W = 0x01#8 ∧ laneOk [1, 2] (lane0 W) ∧ laneOk [0, 1, 2] (lane1 W) ∧ lane2 W = 0) ∨
      ((opcode W = 0x02#8 ∨ opcode W = 0x03#8 ∨ opcode W = 0x04#8) ∧
        laneOk [1, 2] (lane0 W) ∧ laneOk [0, 1, 2] (lane1 W) ∧ laneOk [0, 1, 2] (lane2 W)) ∨
      (opcode W = 0x05#8 ∧ laneOk [1, 2] (lane0 W) ∧ lane1 W = 0 ∧ lane2 W = 0) ∨
      (opcode W = 0x06#8 ∧ laneOk [3] (lane0 W) ∧ lane1 W = 0 ∧ lane2 W = 0))

/-- The kind and the payload fields of a slot, in the bits that R52 to R54 give them. -/
def slotFields (S : Nat) : Slot → Prop
  | .lit v => S / 2 ^ 30 = 0 ∧ v.toNat = S % 2 ^ 8
  | .dir a => S / 2 ^ 30 = 1 ∧ a.toNat = S % 2 ^ 12
  | .ptr xc yc => S / 2 ^ 30 = 2 ∧ xc.toNat = S % 2 ^ 12 ∧ yc.toNat = S / 2 ^ 12 % 2 ^ 12
  | .idx t => S / 2 ^ 30 = 3 ∧ t.toNat = S % 2 ^ 16

/-- The fields of an operation in the bits that R50, R51 and R55 give them: the opcode, and in order the slots. -/
def FieldsOf (W : OpWord) (i : Instr) : Prop :=
  let op := W.toNat / 2 ^ 120
  let s0 := W.toNat / 2 ^ 64 % 2 ^ 32
  let s1 := W.toNat / 2 ^ 32 % 2 ^ 32
  let s2 := W.toNat % 2 ^ 32
  match i with
  | .cpy dst src => op = 1 ∧ slotFields s0 dst ∧ slotFields s1 src
  | .add dst a b => op = 2 ∧ slotFields s0 dst ∧ slotFields s1 a ∧ slotFields s2 b
  | .sub dst a b => op = 3 ∧ slotFields s0 dst ∧ slotFields s1 a ∧ slotFields s2 b
  | .mul dst a b => op = 4 ∧ slotFields s0 dst ∧ slotFields s1 a ∧ slotFields s2 b
  | .rng dst => op = 5 ∧ slotFields s0 dst
  | .jmp target => op = 6 ∧ slotFields s0 target
  | .nop00 rest => op = 0 ∧ rest.toNat = W.toNat % 2 ^ 120
  | .nop07 rest => op = 7 ∧ rest.toNat = W.toNat % 2 ^ 120
  | .nop08 o rest => op = 0x08 + o.toNat ∧ rest.toNat = W.toNat % 2 ^ 120
  | .nop10 o rest => op = 0x10 + o.toNat ∧ rest.toNat = W.toNat % 2 ^ 120
  | .nop20 o rest => op = 0x20 + o.toNat ∧ rest.toNat = W.toNat % 2 ^ 120
  | .nop40 o rest => op = 0x40 + o.toNat ∧ rest.toNat = W.toNat % 2 ^ 120
  | .nop80 o rest => op = 0x80 + o.toNat ∧ rest.toNat = W.toNat % 2 ^ 120

/-- The opcode is one of the six assigned ones (R55). -/
def assignedOpcode (W : OpWord) : Prop := 1 ≤ (opcode W).toNat ∧ (opcode W).toNat ≤ 6

end Sys2Proof.Claims

open Sys2Proof Sys2Proof.Machine Sys2Proof.Claims

/-! Encoding. -/

/-- R50 to R56, R62: no operand bit is dropped on the way to a word and back, for every operation with kinds that R56
allows and every value of every operand. -/
def Obligations.DecodeOfEncodeIsTheOperation : Prop :=
  ∀ i : Instr, i.kindsOk = true → decode (encode i) = .ok i

/-- R63: the decoder reads every bit: a word it accepts is the encoding of the operation it gives, which is one of
allowed kinds. -/
def Obligations.EncodeOfDecodeIsTheWord : Prop :=
  ∀ (W : OpWord) (i : Instr), decode W = .ok i → encode i = W ∧ i.kindsOk = true

/-- R50 to R55: the decoder takes every field of an operation from the bits the tables give it. -/
def Obligations.DecoderReadsEveryField : Prop :=
  ∀ (W : OpWord) (i : Instr), decode W = .ok i → FieldsOf W i

/-- R63 with R57 to R62: every word is one of a well-formed word of an assigned opcode, an unassigned-opcode word, an
ill-formed word, as R57 to R60 say it bit by bit. -/
def Obligations.EveryWordIsInOneClass : Prop :=
  ∀ W : OpWord,
    (assignedOpcode W → wordOk W → ∃ i, decode W = .ok i ∧ i.assigned = true ∧ i.kindsOk = true) ∧
      (assignedOpcode W → ¬ wordOk W → ∃ e, decode W = .error e) ∧
        (¬ assignedOpcode W → ∃ i, decode W = .ok i ∧ i.assigned = false)

/-- The words of the spec's own examples decode to the operations it writes beside them: sections 2 and 3 of
spec/95_test_vectors.md, the `mul` word being the example of R76 in section 4 of spec/41_arithmetic.md. -/
def Obligations.SampleWordsDecode : Prop :=
  decode 0x01000000400000000000000500000000#128 = .ok (.cpy (.dir 0) (.lit 5)) ∧
    decode 0x02000000400000408003F040000000FA#128 = .ok (.add (.dir 64) (.ptr 64 63) (.lit 250)) ∧
    decode 0x03000000400000034000000200000032#128 = .ok (.sub (.dir 3) (.dir 2) (.lit 50)) ∧
    decode 0x04000000400000400000000700000006#128 = .ok (.mul (.dir 64) (.lit 7) (.lit 6)) ∧
    decode 0x05000000800150140000000000000000#128 = .ok (.rng (.ptr 20 21)) ∧
    decode 0x06000000C00012340000000000000000#128 = .ok (.jmp (.idx 0x1234)) ∧
    decode 0x07000000400000000000000500000000#128 = .ok (.nop07 0x000000400000000000000500000000#120)

/-- R49: an image is 16 bytes a word, the most significant byte first, the words in index order; reading it back gives the
program. -/
def Obligations.ProgramImageRoundTrip : Prop :=
  ∀ p : List OpWord, (programImage p).length = 16 * p.length ∧ imageProgram (programImage p) = some p ∧
    ∀ (k j : Nat) (W : OpWord), p[k]? = some W → j < 16 →
      ∃ b, (programImage p)[16 * k + j]? = some b ∧ b.toNat = W.toNat / 2 ^ (8 * (15 - j)) % 256

/-! The codec and the grid. -/

/-- R33: CODEC_REF, bit by bit: where `encode` puts each bit group, what `decode` takes from every colour, the round trip
b mod 128. -/
def Obligations.DefaultCodecBitByBit : Prop :=
  (∀ b : Byte, (Codec.ref.encode b).toNat =
      b.toNat / 16 % 8 * 2 ^ 29 + b.toNat / 4 % 4 * 2 ^ 22 + b.toNat % 4 * 2 ^ 14 + 0xFF) ∧
    (∀ c : Colour, (Codec.ref.decode c).toNat =
      c.toNat / 2 ^ 29 * 16 + c.toNat / 2 ^ 22 % 4 * 4 + c.toNat / 2 ^ 14 % 4) ∧
    (∀ b : Byte, (Codec.ref.rt b).toNat = b.toNat % 128) ∧ Codec.ref.lawful = true

/-- R34: CODEC_BIJ, bit by bit, with the identity as its round trip. -/
def Obligations.LosslessCodecBitByBit : Prop :=
  (∀ b : Byte, (Codec.bij.encode b).toNat =
      b.toNat / 32 * 2 ^ 29 + b.toNat / 4 % 8 * 2 ^ 21 + b.toNat % 4 * 2 ^ 14 + 0xFF) ∧
    (∀ c : Colour, (Codec.bij.decode c).toNat =
      c.toNat / 2 ^ 29 * 32 + c.toNat / 2 ^ 21 % 8 * 4 + c.toNat / 2 ^ 14 % 4) ∧
    (∀ b : Byte, Codec.bij.rt b = b) ∧ Codec.bij.lawful = true

/-- R12, R30: the argument CODEC ranges over every pair of total functions (the model's form of it is log entry 2). -/
def Obligations.CodecArgumentIsAnyPair : Prop :=
  ∀ (enc : Byte → Colour) (dec : Colour → Byte),
    ∃ k : Codec, (∀ b, k.encode b = enc b) ∧ (∀ c, k.decode c = dec c)

/-- R27, R28: a write sets one cell's colour, which then reads as the round trip of the byte, and changes nothing else. -/
def Obligations.WriteThenReadIsRoundTrip : Prop :=
  ∀ (s : State) (a : Cell) (v : Byte), Wrote s (s.memWrite a v) a v ∧ SameButGrid s (s.memWrite a v)

/-- The grid keeps its canonical form under the one operation that changes it (the model's form, log entry 6). -/
def Obligations.GridStaysCanonical : Prop :=
  ∀ (s : State) (a : Cell) (c : Colour), s.grid.wf = true → (s.setColour a c).grid.wf = true

/-- Equal grids are equal data: two canonical grids that hold the same 4096 colours are the same list (log entry 6). -/
def Obligations.CanonicalGridsAreEqualData : Prop :=
  ∀ m n : Memory, m.wf = true → n.wf = true → (∀ a : Cell, m.colourAt a.toNat = n.colourAt a.toNat) → m = n

/-- R25: the linear index of (x, y) is 64 × y + x, and every cell is the cell of its column and its row. -/
def Obligations.CellIndexIsRasterOrder : Prop :=
  (∀ x y : BitVec 6, (cellAt x y).toNat = 64 * y.toNat + x.toNat) ∧
    ∀ a : Cell, cellAt (cellX a) (cellY a) = a ∧ (cellX a).toNat = a.toNat % 64 ∧ (cellY a).toNat = a.toNat / 64

/-- R18, R19: the PC is low | (high << 8) of cells 4094 and 4095; `pc <- t` writes both through the codec and nothing else,
and the PC then reads as the round trip of both bytes. -/
def Obligations.ProgramCounterIsTwoCells : Prop :=
  ∀ (s : State) (x : OpIndex),
    s.pc.toNat = (s.memRead 4094#12).toNat + 256 * (s.memRead 4095#12).toNat ∧
      PcWritten s (s.setPc x) x ∧ (s.setPc x).pc = throughCodec s.cfg.codec x ∧ SameButGrid s (s.setPc x)

/-! Operands. -/

/-- R70: the target of a pointer is the cell 64 × (y-byte mod 64) + (x-byte mod 64), the bytes read from its two cells. -/
def Obligations.PointerTargetIsMasked : Prop :=
  ∀ (s : State) (xc yc : Cell),
    (s.target xc yc).toNat = 64 * ((s.memRead yc).toNat % 64) + (s.memRead xc).toNat % 64

/-- R68, R69: what each kind of slot gives as a source and names as a destination; IDX is refused in both places, LIT as a
destination. -/
def Obligations.SlotsResolveByKind : Prop :=
  ∀ s : State,
    (∀ v, s.value? (.lit v) = some v) ∧ (∀ a, s.value? (.dir a) = some (s.memRead a)) ∧
      (∀ xc yc, s.value? (.ptr xc yc) = some (s.memRead (s.target xc yc))) ∧ (∀ t, s.value? (.idx t) = none) ∧
      (∀ a, s.dest? (.dir a) = some a) ∧ (∀ xc yc, s.dest? (.ptr xc yc) = some (s.target xc yc)) ∧
      (∀ v, s.dest? (.lit v) = none) ∧ (∀ t, s.dest? (.idx t) = none)

/-! The operations. -/

/-- R72: `cpy`, opcode 0x01, completes for every allowed operand form; value and destination are those of the state before;
one cell is written, nothing else changes, `jumped` neither. -/
def Obligations.CpyCopiesOneByte : Prop :=
  ∀ (dst src : Slot) (s : State), dst.isDest = true → src.isSource = true →
    opcode (encode (.cpy dst src)) = 0x01#8 ∧
    ∃ v a t, s.value? src = some v ∧ s.dest? dst = some a ∧ exec (.cpy dst src) s = .next t ∧
      Wrote s t a v ∧ SameButGrid s t

/-- R74: `add`, opcode 0x02, completes for every allowed operand form and stores (a + b) mod 256, nothing else. -/
def Obligations.AddStoresTheSum : Prop :=
  ∀ (dst a b : Slot) (s : State), dst.isDest = true → a.isSource = true → b.isSource = true →
    opcode (encode (.add dst a b)) = 0x02#8 ∧
    ∃ x y r d t, s.value? a = some x ∧ s.value? b = some y ∧ s.dest? dst = some d ∧ exec (.add dst a b) s = .next t ∧
      r.toNat = (x.toNat + y.toNat) % 256 ∧ Wrote s t d r ∧ SameButGrid s t

/-- R75: `sub`, opcode 0x03, completes for every allowed operand form and stores (a − b) mod 256, the non-negative remainder,
nothing else. -/
def Obligations.SubStoresTheDifference : Prop :=
  ∀ (dst a b : Slot) (s : State), dst.isDest = true → a.isSource = true → b.isSource = true →
    opcode (encode (.sub dst a b)) = 0x03#8 ∧
    ∃ x y r d t, s.value? a = some x ∧ s.value? b = some y ∧ s.dest? dst = some d ∧ exec (.sub dst a b) s = .next t ∧
      (r.toNat : Int) = ((x.toNat : Int) - (y.toNat : Int)) % 256 ∧ Wrote s t d r ∧ SameButGrid s t

/-- R76: `mul`, opcode 0x04, completes for every allowed operand form and stores (a × b) mod 256, nothing else. -/
def Obligations.MulStoresTheLowByte : Prop :=
  ∀ (dst a b : Slot) (s : State), dst.isDest = true → a.isSource = true → b.isSource = true →
    opcode (encode (.mul dst a b)) = 0x04#8 ∧
    ∃ x y r d t, s.value? a = some x ∧ s.value? b = some y ∧ s.dest? dst = some d ∧ exec (.mul dst a b) s = .next t ∧
      r.toNat = x.toNat * y.toNat % 256 ∧ Wrote s t d r ∧ SameButGrid s t

/-- R77: `rng`, opcode 0x05, completes for every allowed destination and stores the byte on the port `rnd`; but for the model's own account
of the bytes drawn (log entry 5) nothing else changes. It holds for every value of the free byte. -/
def Obligations.RngStoresTheRandomByte : Prop :=
  ∀ (dst : Slot) (s : State), dst.isDest = true →
    opcode (encode (.rng dst)) = 0x05#8 ∧
    ∃ a t, s.dest? dst = some a ∧ exec (.rng dst) s = .next t ∧ Wrote s t a s.rnd ∧
      t.jumped = s.jumped ∧ t.prog = s.prog ∧ t.cfg = s.cfg ∧ t.rndIn = s.rndIn.tail ∧ t.draws = s.draws + 1

/-- R78: `rnd` may be any byte in any `rng` cycle: whatever the machine and the byte, a host input makes the cell take it. -/
def Obligations.EveryByteCanBeDrawn : Prop :=
  ∀ (dst : Slot) (s : State) (b : Byte) (rest : List Byte), dst.isDest = true →
    ∃ a t, s.dest? dst = some a ∧ exec (.rng dst) { s with rndIn := b :: rest } = .next t ∧
      t.memRead a = s.cfg.codec.rt b ∧ t.rndIn = rest

/-- R79: `jmp`, opcode 0x06, completes for every target, writes both PC cells through the codec and sets `jumped`; no other
cell and nothing else changes. A cycle that executes it ends there: Advance writes nothing, the PC reads as the round trip of
both bytes, and at its own index (grid in the model's canonical form, log entry 6) it changes nothing after the first time. -/
def Obligations.JmpWritesThePcAndSetsJumped : Prop :=
  ∀ (x : OpIndex) (s : State), opcode (encode (.jmp (.idx x))) = 0x06#8 ∧
    (∃ t, exec (.jmp (.idx x)) s = .next t ∧ PcWritten s t x ∧ t.pc = throughCodec s.cfg.codec x ∧ t.jumped = true ∧
      t.prog = s.prog ∧ t.cfg = s.cfg ∧ t.rndIn = s.rndIn ∧ t.draws = s.draws) ∧
    (Executes s (.jmp (.idx x)) → ∃ t, step s = .next t ∧ PcWritten s t x ∧ t.pc = throughCodec s.cfg.codec x ∧
      t.jumped = false ∧ (s.grid.wf = true → Executes t (.jmp (.idx x)) → step t = .next t))

/-- R80: with STRICT = false each of the seven rows of unassigned opcodes completes and changes nothing, whatever the other
bits of the word; with STRICT = true a program that holds one is refused. -/
def Obligations.UnassignedOpcodesDoNothing : Prop :=
  (∀ s : State, s.cfg.strict = false →
    (∀ r, exec (.nop00 r) s = .next s) ∧ (∀ r, exec (.nop07 r) s = .next s) ∧ (∀ o r, exec (.nop08 o r) s = .next s) ∧
      (∀ o r, exec (.nop10 o r) s = .next s) ∧ (∀ o r, exec (.nop20 o r) s = .next s) ∧
      (∀ o r, exec (.nop40 o r) s = .next s) ∧ (∀ o r, exec (.nop80 o r) s = .next s)) ∧
    ∀ p : List OpWord, (∃ W ∈ p, ¬ assignedOpcode W) → ∃ r, programProblem true p = some r

/-- R92: no operation can fail: every well-formed operation completes in every state, and every cycle of an admitted machine
completes. -/
def Obligations.WellFormedOperationsComplete : Prop :=
  (∀ (i : Instr) (s : State), i.wf s.cfg.strict = true → ∃ t, exec i s = .next t) ∧
    ∀ s : State, s.problem = none → ∃ t, step s = .next t

/-- R59, R61, R62: an operation of a kind that R56 does not allow is refused, and under STRICT an unassigned opcode. (The
decoder gives neither to the cycle of an admitted program; log entry 7.) -/
def Obligations.IllFormedOperationsAreRefused : Prop :=
  (∀ (i : Instr) (s : State), i.kindsOk = false → exec i s = .refused .illFormedOperand) ∧
    ∀ (i : Instr) (s : State), i.assigned = false → s.cfg.strict = true → exec i s = .refused .unassignedOpcode

/-- The frame of Execute for every operation: cells that the operation does not write keep their colours, the written
cells being computed by the access trace of R91; program store and arguments stay; only `jmp` sets `jumped`; only `rng`
draws. -/
def Obligations.ExecuteFrame : Prop :=
  ∀ (i : Instr) (s t : State), exec i s = .next t →
    (∀ b : Cell, b ∉ (executeWrites s i).map (·.1) → t.colourAt b = s.colourAt b ∧ t.memRead b = s.memRead b) ∧
      t.prog = s.prog ∧ t.cfg = s.cfg ∧ (isJump i = false → t.jumped = s.jumped) ∧
        ((∀ dst, i ≠ .rng dst) → t.rndIn = s.rndIn ∧ t.draws = s.draws)

/-! The cycle. -/

/-- R84, R87: a cycle that fetches a word and decodes it runs `exec` of that operation with `jumped` cleared, which
completes, and then Advance: after a jump clear `jumped`, otherwise add one to the PC re-read and write it. -/
def Obligations.StepRunsTheDecodedOperation : Prop :=
  ∀ (s : State) (i : Instr), Executes s i →
    ∃ t, exec i s.clearJumped = .next t ∧ step s = .next (if t.jumped then t.clearJumped else t.setPc (t.pc + 1))

/-- R84: the cycle is total: with a lawful codec, at most 65536 words and every word below L well-formed or legally
unassigned, every state has a next state. -/
def Obligations.CycleIsTotal : Prop :=
  ∀ s : State, s.cfg.codec.lawful = true → s.prog.length ≤ 65536 →
    (∀ W ∈ s.prog, ∃ i, decode W = .ok i ∧ i.wf s.cfg.strict = true) → ∃ t, step s = .next t

/-- R61, R62: one ill-formed word at any index below L, or one unassigned opcode under STRICT, and the program is refused
in every cycle, whether or not the PC reaches the word. -/
def Obligations.IllFormedProgramIsRefused : Prop :=
  ∀ (s : State) (k : Nat) (W : OpWord), s.prog[k]? = some W →
    ((∃ e, decode W = .error e) ∨ (s.cfg.strict = true ∧ ¬ assignedOpcode W)) → ∃ r, step s = .refused r

/-- R86: with no program, or the PC not below L, a cycle changes nothing, and so does every later one. -/
def Obligations.IdleCycleIsAFixedPoint : Prop :=
  ∀ s : State, s.problem = none → s.prog.length ≤ s.pc.toNat →
    step s = .next s ∧ ∀ n : Nat, core.run n s = .next s

/-- R88: Advance after an operation that set no `jumped` writes the PC re-read after Execute plus one, both bytes through
the codec, and no other cell; after a jump it writes no cell. -/
def Obligations.AdvanceIncrementsTheRereadPc : Prop :=
  ∀ (s u t : State) (i : Instr), Executes s i → exec i s.clearJumped = .next u → step s = .next t →
    t.jumped = false ∧
      (u.jumped = false → PcWritten u t (u.pc + 1) ∧ t.pc = throughCodec s.cfg.codec (u.pc + 1)) ∧
        (u.jumped = true → t.grid = u.grid)

/-- R81: an operation other than `jmp` that writes byte `v` to a PC cell moves the PC to the value with that byte's round trip
in its place, plus one, both bytes through the codec; as sources the PC cells read as the bytes of the operation's own
index. -/
def Obligations.OrdinaryWriteToThePcRedirects : Prop :=
  ∀ (s t : State) (i : Instr) (v : Byte), Executes s i → isJump i = false → step s = .next t →
    (executeWrites s i = [(pcLo, v)] →
        t.pc = throughCodec s.cfg.codec ((s.memRead pcHi ++ s.cfg.codec.rt v : OpIndex) + 1)) ∧
      (executeWrites s i = [(pcHi, v)] →
        t.pc = throughCodec s.cfg.codec ((s.cfg.codec.rt v ++ s.memRead pcLo : OpIndex) + 1)) ∧
      s.value? (.dir pcLo) = some (s.pc.extractLsb' 0 8) ∧ s.value? (.dir pcHi) = some (s.pc.extractLsb' 8 8)

/-- R80: the whole cycle of an unassigned opcode is PC ← PC + 1 through the codec. -/
def Obligations.UnassignedCycleOnlyAdvances : Prop :=
  ∀ (s : State) (i : Instr), Executes s i → i.assigned = false →
    ∃ t, step s = .next t ∧ PcWritten s t (s.pc + 1) ∧ t.pc = throughCodec s.cfg.codec (s.pc + 1) ∧
      t.jumped = false ∧ t.prog = s.prog ∧ t.cfg = s.cfg ∧ t.rndIn = s.rndIn ∧ t.draws = s.draws

/-- R116: under CODEC_REF the PC has bits 7 and 15 clear; an operation that is no jump and writes no PC cell takes the low
byte to (low + 1) mod 128 and keeps the high byte; a jump to x lands on x & 0x7F7F. Under CODEC_BIJ the PC counts
normally. -/
def Obligations.PcRunsInsideAPageUnderTheDefaultCodec : Prop :=
  ∀ (s t : State) (i : Instr), Executes s i → step s = .next t →
    (s.cfg.codec = .ref → s.pc &&& 0x8080#16 = 0 ∧
      (isJump i = false → (∀ w ∈ executeWrites s i, w.1 ≠ pcLo ∧ w.1 ≠ pcHi) →
        (t.memRead pcLo).toNat = ((s.memRead pcLo).toNat + 1) % 128 ∧ t.memRead pcHi = s.memRead pcHi) ∧
      ∀ x, i = .jmp (.idx x) → t.pc = x &&& 0x7F7F#16) ∧
    (s.cfg.codec = .bij →
      (isJump i = false → (∀ w ∈ executeWrites s i, w.1 ≠ pcLo ∧ w.1 ≠ pcHi) → t.pc = s.pc + 1) ∧
      ∀ x, i = .jmp (.idx x) → t.pc = x)

/-- R91, R40: the trace of a cycle's accesses, written from R91, is the cycle: each read gives the colour the cell has at that
point, and after all the writes in order the grid is the one `step` gives. (The trace beside `step` is the model's form of what a
display sees, log entry 12.) -/
def Obligations.AccessTraceIsTheCycle : Prop :=
  ∀ s t : State, step s = .next t →
    s.grid.replay s.cycleAccesses = t.grid ∧
      ∀ (before after : List Access) (a : Cell) (c : Colour), s.cycleAccesses = before ++ Access.read a c :: after →
        c = (s.grid.replay before).colourAt a.toNat

/-- R84, R41: a cycle writes no cell, or the two PC cells, or one destination cell and then the two PC cells, low before
high; every cell it does not write keeps its colour. -/
def Obligations.CycleWritesAtMostThreeCells : Prop :=
  ∀ s t : State, step s = .next t →
    (writtenCells s.cycleAccesses = [] ∨ writtenCells s.cycleAccesses = [pcLo, pcHi] ∨
      ∃ d : Cell, writtenCells s.cycleAccesses = [d, pcLo, pcHi]) ∧
      ∀ b : Cell, b ∉ writtenCells s.cycleAccesses → t.colourAt b = s.colourAt b

/-! Whole-machine rules. -/

/-- R17, R20, R32, R61: between cycles the grid is canonical, `jumped` is clear, every colour is BLANK or a value of `encode`,
and the machine is admitted; every cycle keeps that. The canonical form is the model's, not the spec's (log entry 6). -/
def Obligations.EveryCycleKeepsReady : Prop :=
  ∀ s t : State, s.Ready → step s = .next t → t.Ready

/-- The power-on state meets it, the model's canonical form (log entry 6) included. -/
def Obligations.ResetIsReady : Prop := State.reset.Ready

/-- R17, R105: every run of the machine, cycles, program loads, grid resets and host writes in any order, keeps it. The
canonical form in it is the model's (log entry 6). -/
def Obligations.EveryRunKeepsReady : Prop :=
  ∀ (es : List HostEvent) (s t : State), s.Ready → runEvents es s = .next t → t.Ready

/-- R20: `jumped` carries nothing from one cycle to the next: it is clear after every cycle that began with it clear. -/
def Obligations.JumpedIsClearBetweenCycles : Prop :=
  ∀ s t : State, s.jumped = false → step s = .next t → t.jumped = false

/-- R21: the program store changes by program load alone, which replaces all of it and admits at most 65536 words; the
arguments of the run change by no event. -/
def Obligations.ProgramStoreChangesByLoadAlone : Prop :=
  ∀ (e : HostEvent) (s t : State), applyEvent e s = .next t →
    t.cfg = s.cfg ∧ ((∀ p, e ≠ .load p) → t.prog = s.prog) ∧
      ∀ p, e = .load p → t.prog = p ∧ p.length ≤ 65536

/-- R17: the core cannot tell two colours of one byte apart: machines that differ in such colours alone take the same
steps for any number of cycles. -/
def Obligations.CoreSeesOnlyBytes : Prop :=
  ∀ (n : Nat) (s t : State), SameBytes s t → Agree SameBytes (core.run n s) (core.run n t)

/-- R78: a cycle that does not execute `rng` ignores `rnd`: whatever the host's bytes and the account of draws, the same
happens and they stay. -/
def Obligations.OnlyRngReadsTheRandomInput : Prop :=
  ∀ (s t : State) (r : List Byte) (d : Nat), (∀ dst, ¬ Executes s (.rng dst)) → step s = .next t →
    step { s with rndIn := r, draws := d } = .next { t with rndIn := r, draws := d }

/-- R115: between cycles every byte the machine reads, those of the PC among them, is 0 or in the image of `rt`. -/
def Obligations.ReadableBytesAreRoundTrips : Prop :=
  ∀ (s : State) (a : Cell), s.Ready → s.memRead a = 0 ∨ ∃ v : Byte, s.memRead a = s.cfg.codec.rt v

/-! Reset and the host's events. -/

/-- R23: after power-on every cell is BLANK and reads 0, the PC is 0, `jumped` is 0, no program is loaded; a grid reset
leaves the same, under every lawful codec, but for the program store, which stays. -/
def Obligations.StateAfterReset : Prop :=
  ((∀ a : Cell, State.reset.colourAt a = 0x00000000#32 ∧ State.reset.memRead a = 0) ∧ State.reset.pc = 0 ∧
    State.reset.jumped = false ∧ State.reset.prog = []) ∧
  ∀ s : State, s.cfg.codec.lawful = true →
    (∀ a : Cell, (gridReset s).colourAt a = 0x00000000#32 ∧ (gridReset s).memRead a = 0) ∧ (gridReset s).pc = 0 ∧
      (gridReset s).jumped = false ∧ (gridReset s).prog = s.prog

/-- R101: program load replaces the whole program store and writes 0 to both PC cells, which then read 0 as every codec's
laws say (R32); no other cell and nothing else changes; a program that is too long, or holds an ill-formed word (under STRICT
also an unassigned opcode), is refused. That a program of more than 65536 words is refused is deduced from R11 and R21, not
stated by R101 (log entry 4, DEDUCED). -/
def Obligations.ProgramLoadZeroesThePc : Prop :=
  ∀ (p : List OpWord) (s : State),
    (p.length ≤ 65536 → (∀ W ∈ p, ∃ i, decode W = .ok i ∧ i.wf s.cfg.strict = true) →
      ∃ t, loadProgram p s = .next t ∧ t.prog = p ∧ PcWritten s t 0 ∧ (s.cfg.codec.lawful = true → t.pc = 0) ∧
        t.jumped = s.jumped ∧ t.cfg = s.cfg ∧ t.rndIn = s.rndIn ∧ t.draws = s.draws) ∧
      ((65536 < p.length ∨ ∃ W ∈ p, (∃ e, decode W = .error e) ∨ (s.cfg.strict = true ∧ ¬ assignedOpcode W)) →
        ∃ r, loadProgram p s = .refused r)

/-- R102, R23: a grid reset blanks every cell, so the PC is 0 under every lawful codec; the program store stays. -/
def Obligations.GridResetBlanksEveryCell : Prop :=
  ∀ s : State, (∀ a : Cell, (gridReset s).colourAt a = 0x00000000#32) ∧ (gridReset s).jumped = false ∧
    (gridReset s).prog = s.prog ∧ (gridReset s).cfg = s.cfg ∧
      (s.cfg.codec.lawful = true → (gridReset s).pc = 0 ∧ ∀ a : Cell, (gridReset s).memRead a = 0)

/-- R46, R103: a bulk load puts byte k of the stream in cell k through the codec, PC cells included, and changes nothing
else. -/
def Obligations.BulkLoadPacksFromIndexZero : Prop :=
  ∀ (bytes : List Byte) (s : State), bytes.length ≤ 4096 →
    ∃ t, bulkLoad bytes s = .next t ∧ SameButGrid s t ∧
      ∀ a : Cell, t.colourAt a =
        match bytes[a.toNat]? with
        | some v => s.cfg.codec.encode v
        | none => s.colourAt a

/-- R100, R103: a tick is one cycle and an edge without a tick is nothing; a host write is one cell write. -/
def Obligations.TickIsOneCycleAndHostWriteOneCell : Prop :=
  ∀ s : State, clockEdge true s = step s ∧ clockEdge false s = .next s ∧
    ∀ (a : Cell) (v : Byte), Wrote s (hostWrite a v s) a v ∧ SameButGrid s (hostWrite a v s)

/-! The assembler. -/

/-- R67: every text that assembles gives words that are all well-formed or legally unassigned, and a program the machine
admits (the choices of log entry 15 included). -/
def Obligations.AssembledProgramsAreAdmitted : Prop :=
  ∀ (strict : Bool) (text : List Char) (p : List OpWord), assembleText strict text = .ok p →
    programProblem strict p = none

/-- R66: the pointer literal at A takes A as its x-cell and (A − 1) mod 4096 as its y-cell. -/
def Obligations.PointerLiteralCells : Prop :=
  ∀ a : Cell, ∃ yc : Cell, pointerAt a = .ptr a yc ∧ yc.toNat = (a.toNat + 4095) % 4096

/-! The host's way in. -/

/-- The model's own way to place a word (log entries 1 and 11): the next Fetch finds exactly it, and only the program store
has changed. -/
def Obligations.PlacedWordIsFetched : Prop :=
  ∀ (s : State) (nbits w : Nat), (s.withFetchWord nbits w).fetch = some (BitVec.ofNat 128 (w % 2 ^ nbits)) ∧
    (s.withFetchWord nbits w).grid = s.grid ∧ SameButGrid s { s.withFetchWord nbits w with prog := s.prog }
end

