-- ==== Sys2Proof/Laws/Assembler.lean ====
section
/-! SUPPORT. What an assembled line is. -/

namespace Sys2Proof.Machine

/-- An operation that the assembler makes is well-formed, or legally unassigned. -/
theorem operation_wf {strict : Bool} {m : Mnemonic} {slots : List Slot} {i : Instr}
    (h : operation strict m slots = .ok i) : i.wf strict = true := by
  unfold operation at h
  split at h <;> (try split at h) <;> first | (cases h; done) | skip
  all_goals cases h
  · simp_all [Instr.wf, Instr.kindsOk, Instr.assigned]
  all_goals simp_all [Instr.wf, Instr.assigned]

/-- So is the operation of a line. -/
theorem assembleLine_wf {strict : Bool} {labels : List (List Char × Nat)} {line : List Char} {i : Instr}
    (h : assembleLine strict labels line = .ok i) : i.wf strict = true := by
  unfold assembleLine at h
  split at h
  · cases h
  · split at h
    · cases h
    · exact operation_wf h

end Sys2Proof.Machine
end

