-- ==== Sys2Proof/Laws/State.lean ====
section
/-! SUPPORT. What each update of the state leaves as it was: one lemma per field per update, all true by rfl. -/

namespace Sys2Proof.Machine

section
variable (s : State) (a : Cell) (c : Colour) (v : Byte) (t : OpIndex) (p : List OpWord)

@[simp] theorem setColour_grid : (s.setColour a c).grid = s.grid.put a.toNat c := rfl
@[simp] theorem setColour_jumped : (s.setColour a c).jumped = s.jumped := rfl
@[simp] theorem setColour_prog : (s.setColour a c).prog = s.prog := rfl
@[simp] theorem setColour_cfg : (s.setColour a c).cfg = s.cfg := rfl
@[simp] theorem setColour_rndIn : (s.setColour a c).rndIn = s.rndIn := rfl
@[simp] theorem setColour_draws : (s.setColour a c).draws = s.draws := rfl

@[simp] theorem memWrite_grid : (s.memWrite a v).grid = s.grid.put a.toNat (s.cfg.codec.encode v) := rfl
@[simp] theorem memWrite_jumped : (s.memWrite a v).jumped = s.jumped := rfl
@[simp] theorem memWrite_prog : (s.memWrite a v).prog = s.prog := rfl
@[simp] theorem memWrite_cfg : (s.memWrite a v).cfg = s.cfg := rfl
@[simp] theorem memWrite_rndIn : (s.memWrite a v).rndIn = s.rndIn := rfl
@[simp] theorem memWrite_draws : (s.memWrite a v).draws = s.draws := rfl

@[simp] theorem setPc_jumped : (s.setPc t).jumped = s.jumped := rfl
@[simp] theorem setPc_prog : (s.setPc t).prog = s.prog := rfl
@[simp] theorem setPc_cfg : (s.setPc t).cfg = s.cfg := rfl
@[simp] theorem setPc_rndIn : (s.setPc t).rndIn = s.rndIn := rfl
@[simp] theorem setPc_draws : (s.setPc t).draws = s.draws := rfl

@[simp] theorem drawn_grid : s.drawn.grid = s.grid := rfl
@[simp] theorem drawn_jumped : s.drawn.jumped = s.jumped := rfl
@[simp] theorem drawn_prog : s.drawn.prog = s.prog := rfl
@[simp] theorem drawn_cfg : s.drawn.cfg = s.cfg := rfl
@[simp] theorem drawn_rndIn : s.drawn.rndIn = s.rndIn.tail := rfl
@[simp] theorem drawn_draws : s.drawn.draws = s.draws + 1 := rfl
@[simp] theorem drawn_colourAt : s.drawn.colourAt a = s.colourAt a := rfl
@[simp] theorem drawn_memRead : s.drawn.memRead a = s.memRead a := rfl
@[simp] theorem drawn_pc : s.drawn.pc = s.pc := rfl

@[simp] theorem setJumped_grid : s.setJumped.grid = s.grid := rfl
@[simp] theorem setJumped_jumped : s.setJumped.jumped = true := rfl
@[simp] theorem setJumped_prog : s.setJumped.prog = s.prog := rfl
@[simp] theorem setJumped_cfg : s.setJumped.cfg = s.cfg := rfl
@[simp] theorem setJumped_rndIn : s.setJumped.rndIn = s.rndIn := rfl
@[simp] theorem setJumped_draws : s.setJumped.draws = s.draws := rfl
@[simp] theorem setJumped_colourAt : s.setJumped.colourAt a = s.colourAt a := rfl
@[simp] theorem setJumped_memRead : s.setJumped.memRead a = s.memRead a := rfl
@[simp] theorem setJumped_pc : s.setJumped.pc = s.pc := rfl

@[simp] theorem clearJumped_grid : s.clearJumped.grid = s.grid := rfl
@[simp] theorem clearJumped_jumped : s.clearJumped.jumped = false := rfl
@[simp] theorem clearJumped_prog : s.clearJumped.prog = s.prog := rfl
@[simp] theorem clearJumped_cfg : s.clearJumped.cfg = s.cfg := rfl
@[simp] theorem clearJumped_rndIn : s.clearJumped.rndIn = s.rndIn := rfl
@[simp] theorem clearJumped_draws : s.clearJumped.draws = s.draws := rfl
@[simp] theorem clearJumped_colourAt : s.clearJumped.colourAt a = s.colourAt a := rfl
@[simp] theorem clearJumped_memRead : s.clearJumped.memRead a = s.memRead a := rfl
@[simp] theorem clearJumped_pc : s.clearJumped.pc = s.pc := rfl
@[simp] theorem clearJumped_rnd : s.clearJumped.rnd = s.rnd := rfl

@[simp] theorem gridReset_grid : (gridReset s).grid = [] := rfl
@[simp] theorem gridReset_jumped : (gridReset s).jumped = false := rfl
@[simp] theorem gridReset_prog : (gridReset s).prog = s.prog := rfl
@[simp] theorem gridReset_cfg : (gridReset s).cfg = s.cfg := rfl
@[simp] theorem gridReset_rndIn : (gridReset s).rndIn = s.rndIn := rfl
@[simp] theorem gridReset_draws : (gridReset s).draws = s.draws := rfl

@[simp] theorem advance_prog : s.advance.prog = s.prog := by unfold State.advance; split <;> rfl
@[simp] theorem advance_cfg : s.advance.cfg = s.cfg := by unfold State.advance; split <;> rfl
@[simp] theorem advance_rndIn : s.advance.rndIn = s.rndIn := by unfold State.advance; split <;> rfl
@[simp] theorem advance_draws : s.advance.draws = s.draws := by unfold State.advance; split <;> rfl

/-- Advance leaves `jumped` clear (spec/10_state.md rule R20). -/
@[simp] theorem advance_jumped : s.advance.jumped = false := by
  unfold State.advance
  split
  · rfl
  · next h => simpa using h

/-- The problem of a state depends on its program and its arguments alone. -/
theorem problem_congr {s t : State} (hp : t.prog = s.prog) (hc : t.cfg = s.cfg) : t.problem = s.problem := by
  simp only [State.problem, hp, hc]

end

end Sys2Proof.Machine
end

