-- ==== Sys2Proof/Laws/Memory.lean ====
section
/-! SUPPORT. The laws of the grid: read after write, other cells, the canonical form. -/

namespace Sys2Proof.Machine

theorem insert_colourAt_same (m : Memory) (a : Nat) (c : Colour) : (m.insert a c).colourAt a = c := by
  induction m with
  | nil => simp [Memory.insert, Memory.colourAt]
  | cons e rest ih =>
    obtain ⟨k, d⟩ := e
    simp only [Memory.insert]
    split
    · simp [Memory.colourAt]
    · split
      · simp [Memory.colourAt]
      · next h => simp [Memory.colourAt, ih, Ne.symm h]

theorem insert_colourAt_other (m : Memory) {a b : Nat} (c : Colour) (h : b ≠ a) :
    (m.insert a c).colourAt b = m.colourAt b := by
  induction m with
  | nil => simp [Memory.insert, Memory.colourAt, h.symm]
  | cons e rest ih =>
    obtain ⟨k, d⟩ := e
    simp only [Memory.insert]
    split
    · simp [Memory.colourAt, h.symm]
    · split
      · next hk => subst hk; simp [Memory.colourAt, h.symm]
      · simp [Memory.colourAt, ih]

theorem filter_colourAt_same (m : Memory) (a : Nat) :
    Memory.colourAt (m.filter (fun e => e.1 != a)) a = blankColour := by
  induction m with
  | nil => rfl
  | cons e rest ih =>
    obtain ⟨k, d⟩ := e
    by_cases h : k = a
    · simp [h, ih]
    · simp [h, ih, Memory.colourAt]

theorem filter_colourAt_other (m : Memory) {a b : Nat} (h : b ≠ a) :
    Memory.colourAt (m.filter (fun e => e.1 != a)) b = m.colourAt b := by
  induction m with
  | nil => rfl
  | cons e rest ih =>
    obtain ⟨k, d⟩ := e
    by_cases hk : k = a
    · subst hk; simp [ih, Memory.colourAt, h.symm]
    · simp [hk, ih, Memory.colourAt]

/-- A cell holds the colour last put there. -/
@[simp] theorem put_colourAt_same (m : Memory) (a : Nat) (c : Colour) : (m.put a c).colourAt a = c := by
  unfold Memory.put
  split
  · next h => rw [filter_colourAt_same, h]
  · exact insert_colourAt_same m a c

/-- A put changes no other cell. -/
theorem put_colourAt_other (m : Memory) {a b : Nat} (c : Colour) (h : b ≠ a) :
    (m.put a c).colourAt b = m.colourAt b := by
  unfold Memory.put
  split
  · exact filter_colourAt_other m h
  · exact insert_colourAt_other m c h

theorem put_colourAt (m : Memory) (a b : Nat) (c : Colour) :
    (m.put a c).colourAt b = if b = a then c else m.colourAt b := by
  split
  · next h => subst h; simp
  · next h => exact put_colourAt_other m c h

theorem insert_lower {m : Memory} {a k : Nat} {c : Colour} (ha : k < a)
    (hm : m.all (fun e => decide (k < e.1)) = true) : (m.insert a c).all (fun e => decide (k < e.1)) = true := by
  induction m with
  | nil => simp [Memory.insert, ha]
  | cons e rest ih =>
    obtain ⟨j, d⟩ := e
    simp only [List.all_cons, Bool.and_eq_true, decide_eq_true_eq] at hm
    simp only [Memory.insert]
    split
    · simp only [List.all_cons, Bool.and_eq_true, decide_eq_true_eq]; exact ⟨ha, hm⟩
    · split
      · simp only [List.all_cons, Bool.and_eq_true, decide_eq_true_eq]; exact ⟨ha, hm.2⟩
      · simp only [List.all_cons, Bool.and_eq_true, decide_eq_true_eq]; exact ⟨hm.1, ih hm.2⟩

theorem insert_wf {m : Memory} {a : Nat} {c : Colour} (ha : a < 4096) (hc : c ≠ blankColour) (hm : m.wf = true) :
    (m.insert a c).wf = true := by
  induction m with
  | nil => simp [Memory.insert, Memory.wf, ha, hc]
  | cons e rest ih =>
    obtain ⟨k, d⟩ := e
    simp only [Memory.wf, Bool.and_eq_true, decide_eq_true_eq, bne_iff_ne, ne_eq] at hm
    obtain ⟨⟨⟨hk, hd⟩, hall⟩, hrest⟩ := hm
    simp only [Memory.insert]
    split
    · next hlt =>
      have : rest.all (fun e => decide (a < e.1)) = true := by
        simp only [List.all_eq_true, decide_eq_true_eq] at hall ⊢
        intro e he; have := hall e he; omega
      simp [Memory.wf, ha, hc, hlt, hk, hd, hrest, hall, this]
    · split
      · next heq => subst heq; simp [Memory.wf, ha, hc, hall, hrest]
      · next h1 h2 =>
        have hlow := insert_lower (c := c) (show k < a by omega) hall
        simp [Memory.wf, hk, hd, hlow, ih hrest]

theorem filter_wf {m : Memory} (a : Nat) (hm : m.wf = true) : Memory.wf (m.filter (fun e => e.1 != a)) = true := by
  induction m with
  | nil => rfl
  | cons e rest ih =>
    obtain ⟨k, d⟩ := e
    simp only [Memory.wf, Bool.and_eq_true] at hm
    obtain ⟨⟨⟨hk, hd⟩, hall⟩, hrest⟩ := hm
    have hall' : (rest.filter (fun e => e.1 != a)).all (fun e => decide (k < e.1)) = true := by
      simp only [List.all_eq_true, List.mem_filter] at hall ⊢
      exact fun e he => hall e he.1
    by_cases h : k = a
    · simpa [List.filter_cons, h] using ih hrest
    · have hka : (k != a) = true := by simpa using h
      simp only [List.filter_cons, hka, if_true, Memory.wf, Bool.and_eq_true]
      exact ⟨⟨⟨hk, hd⟩, hall'⟩, ih hrest⟩

/-- Every memory operation keeps the canonical form: `put` is the only one that changes the grid. -/
theorem put_wf {m : Memory} {a : Nat} (c : Colour) (ha : a < 4096) (hm : m.wf = true) : (m.put a c).wf = true := by
  unfold Memory.put
  split
  · exact filter_wf a hm
  · next h => exact insert_wf ha h hm

/-- The reset grid is in canonical form. -/
theorem reset_wf : State.reset.grid.wf = true := rfl

theorem cell_toNat_ne {a b : Cell} (h : b ≠ a) : b.toNat ≠ a.toNat := fun e => h (BitVec.eq_of_toNat_eq e)

/-- The colour of a cell after a write. -/
theorem memWrite_colourAt (s : State) (a b : Cell) (v : Byte) :
    (s.memWrite a v).colourAt b = if b = a then s.cfg.codec.encode v else s.colourAt b := by
  unfold State.colourAt
  split
  · next h => subst h; simp
  · next h => simp [put_colourAt_other _ _ (cell_toNat_ne h)]

/-- A cell reads back as the round trip of the byte written (spec/20_memory.md rule R28); other cells as before. -/
theorem memWrite_memRead (s : State) (a b : Cell) (v : Byte) :
    (s.memWrite a v).memRead b = if b = a then s.cfg.codec.rt v else s.memRead b := by
  unfold State.memRead
  rw [memWrite_colourAt, memWrite_cfg]
  split <;> rfl

theorem pcHi_ne_pcLo : pcHi ≠ pcLo := by decide
theorem pcLo_ne_pcHi : pcLo ≠ pcHi := by decide

/-- The colour of a cell after `pc <- t`. -/
theorem setPc_colourAt (s : State) (t : OpIndex) (b : Cell) :
    (s.setPc t).colourAt b =
      if b = pcHi then s.cfg.codec.encode (t.extractLsb' 8 8)
      else if b = pcLo then s.cfg.codec.encode (t.extractLsb' 0 8) else s.colourAt b := by
  simp only [State.setPc, memWrite_colourAt, memWrite_cfg]

theorem setPc_memRead (s : State) (t : OpIndex) (b : Cell) :
    (s.setPc t).memRead b =
      if b = pcHi then s.cfg.codec.rt (t.extractLsb' 8 8)
      else if b = pcLo then s.cfg.codec.rt (t.extractLsb' 0 8) else s.memRead b := by
  simp only [State.setPc, memWrite_memRead, memWrite_cfg]

/-- The program counter read back after `pc <- t` is the round trip of both bytes (spec/10_state.md rule R19). -/
theorem setPc_pc (s : State) (t : OpIndex) :
    (s.setPc t).pc = s.cfg.codec.rt (t.extractLsb' 8 8) ++ s.cfg.codec.rt (t.extractLsb' 0 8) := by
  simp [State.pc, setPc_memRead, pcLo_ne_pcHi]

theorem memWrite_wf {s : State} (a : Cell) (v : Byte) (h : s.grid.wf = true) : (s.memWrite a v).grid.wf = true :=
  put_wf _ a.isLt h

theorem setPc_wf {s : State} (t : OpIndex) (h : s.grid.wf = true) : (s.setPc t).grid.wf = true :=
  memWrite_wf _ _ (memWrite_wf _ _ h)

theorem advance_wf {s : State} (h : s.grid.wf = true) : s.advance.grid.wf = true := by
  unfold State.advance
  split
  · exact h
  · exact setPc_wf _ h

end Sys2Proof.Machine
end

