-- ==== Sys2Proof/Laws/Operands.lean ====
section
/-! SUPPORT. Operand resolution: which slots resolve, and all that a storing operation can do. -/

namespace Sys2Proof.Machine

theorem value?_isSome (s : State) (x : Slot) : (s.value? x).isSome = x.isSource := by
  cases x <;> rfl

theorem dest?_isSome (s : State) (x : Slot) : (s.dest? x).isSome = x.isDest := by
  cases x <;> rfl

theorem indexOf?_isSome (x : Slot) : (indexOf? x).isSome = x.isIndex := by
  cases x <;> rfl

theorem value?_eq_some_of_isSource (s : State) {x : Slot} (h : x.isSource = true) : ∃ v, s.value? x = some v :=
  Option.isSome_iff_exists.mp (by rw [value?_isSome, h])

theorem dest?_eq_some_of_isDest (s : State) {x : Slot} (h : x.isDest = true) : ∃ a, s.dest? x = some a :=
  Option.isSome_iff_exists.mp (by rw [dest?_isSome, h])

theorem indexOf?_eq_some_of_isIndex {x : Slot} (h : x.isIndex = true) : ∃ t, indexOf? x = some t :=
  Option.isSome_iff_exists.mp (by rw [indexOf?_isSome, h])

/-- Resolution reads the grid through the codec and nothing else. -/
theorem target_congr {s t : State} (h : ∀ a, t.memRead a = s.memRead a) (xc yc : Cell) :
    t.target xc yc = s.target xc yc := by
  simp only [State.target, h]

theorem value?_congr {s t : State} (h : ∀ a, t.memRead a = s.memRead a) (x : Slot) : t.value? x = s.value? x := by
  cases x <;> simp only [State.value?, h, target_congr h]

theorem dest?_congr {s t : State} (h : ∀ a, t.memRead a = s.memRead a) (x : Slot) : t.dest? x = s.dest? x := by
  cases x <;> simp only [State.dest?, target_congr h]

@[simp] theorem clearJumped_value? (s : State) (x : Slot) : s.clearJumped.value? x = s.value? x :=
  value?_congr (fun _ => rfl) x

@[simp] theorem clearJumped_dest? (s : State) (x : Slot) : s.clearJumped.dest? x = s.dest? x :=
  dest?_congr (fun _ => rfl) x

@[simp] theorem drawn_dest? (s : State) (x : Slot) : s.drawn.dest? x = s.dest? x :=
  dest?_congr (fun _ => rfl) x

/-- A store whose value and destination resolve makes its one write. -/
theorem storeByte_of_some {s : State} {dst : Slot} {v : Byte} {a : Cell} (ha : s.dest? dst = some a) :
    storeByte dst (some v) s = .next (s.memWrite a v) := by
  simp only [storeByte, ha]

/-- All that a store can do when it gives a next state. -/
theorem storeByte_next {s t : State} {dst : Slot} {v : Option Byte} (h : storeByte dst v s = .next t) :
    ∃ x a, v = some x ∧ s.dest? dst = some a ∧ t = s.memWrite a x := by
  unfold storeByte at h
  split at h
  · next x a ha => cases h; exact ⟨x, a, rfl, ha, rfl⟩
  · cases h
  · cases h

theorem arithmetic_of_some {f : Byte → Byte → Byte} {s : State} {dst a b : Slot} {x y : Byte} {d : Cell}
    (hx : s.value? a = some x) (hy : s.value? b = some y) (hd : s.dest? dst = some d) :
    arithmetic f dst a b s = .next (s.memWrite d (f x y)) := by
  simp only [arithmetic, hx, hy, Option.bind_some, Option.map_some, storeByte_of_some hd]

/-- All that `add`, `sub` and `mul` can do when they give a next state. -/
theorem arithmetic_next {f : Byte → Byte → Byte} {s t : State} {dst a b : Slot} (h : arithmetic f dst a b s = .next t) :
    ∃ x y d, s.value? a = some x ∧ s.value? b = some y ∧ s.dest? dst = some d ∧ t = s.memWrite d (f x y) := by
  obtain ⟨v, d, hv, hd, rfl⟩ := storeByte_next h
  cases ha : s.value? a with
  | none => simp [ha] at hv
  | some x =>
    cases hb : s.value? b with
    | none => simp [ha, hb] at hv
    | some y =>
      simp only [ha, hb, Option.bind_some, Option.map_some, Option.some.injEq] at hv
      exact ⟨x, y, d, rfl, rfl, hd, by rw [hv]⟩

theorem unassigned_next {s t : State} (h : unassigned s = .next t) : s.cfg.strict = false ∧ t = s := by
  unfold unassigned at h
  split at h
  · cases h
  · next hs => cases h; exact ⟨by simpa using hs, rfl⟩

/-- All that Execute can do: one write of one cell (of a state whose random byte may have been drawn), a jump, or
nothing. -/
theorem exec_next {i : Instr} {s t : State} (h : exec i s = .next t) :
    (∃ a v, t = s.memWrite a v) ∨ (∃ dst a, i = .rng dst ∧ s.dest? dst = some a ∧ t = s.drawn.memWrite a s.rnd) ∨
      (∃ x, i = .jmp (.idx x) ∧ t = (s.setPc x).setJumped) ∨ (i.assigned = false ∧ s.cfg.strict = false ∧ t = s) := by
  cases i with
  | cpy dst src =>
    obtain ⟨v, a, -, -, rfl⟩ := storeByte_next h
    exact .inl ⟨a, v, rfl⟩
  | add dst a b =>
    obtain ⟨x, y, d, -, -, -, rfl⟩ := arithmetic_next h
    exact .inl ⟨d, _, rfl⟩
  | sub dst a b =>
    obtain ⟨x, y, d, -, -, -, rfl⟩ := arithmetic_next h
    exact .inl ⟨d, _, rfl⟩
  | mul dst a b =>
    obtain ⟨x, y, d, -, -, -, rfl⟩ := arithmetic_next h
    exact .inl ⟨d, _, rfl⟩
  | rng dst =>
    obtain ⟨v, a, hv, ha, rfl⟩ := storeByte_next h
    cases hv
    exact .inr (.inl ⟨dst, a, rfl, by simpa using ha, rfl⟩)
  | jmp target =>
    cases target with
    | idx x => cases h; exact .inr (.inr (.inl ⟨x, rfl, rfl⟩))
    | lit v => cases h
    | dir a => cases h
    | ptr xc yc => cases h
  | nop00 rest => exact .inr (.inr (.inr ⟨rfl, unassigned_next h⟩))
  | nop07 rest => exact .inr (.inr (.inr ⟨rfl, unassigned_next h⟩))
  | nop08 op rest => exact .inr (.inr (.inr ⟨rfl, unassigned_next h⟩))
  | nop10 op rest => exact .inr (.inr (.inr ⟨rfl, unassigned_next h⟩))
  | nop20 op rest => exact .inr (.inr (.inr ⟨rfl, unassigned_next h⟩))
  | nop40 op rest => exact .inr (.inr (.inr ⟨rfl, unassigned_next h⟩))
  | nop80 op rest => exact .inr (.inr (.inr ⟨rfl, unassigned_next h⟩))

/-- Execute changes neither the program store nor the arguments. -/
theorem exec_prog_cfg {i : Instr} {s t : State} (h : exec i s = .next t) : t.prog = s.prog ∧ t.cfg = s.cfg := by
  obtain ⟨a, v, rfl⟩ | ⟨dst, a, -, -, rfl⟩ | ⟨x, -, rfl⟩ | ⟨-, -, rfl⟩ := exec_next h <;> exact ⟨rfl, rfl⟩

end Sys2Proof.Machine
end

