-- ==== Sys2Proof/Laws/Cycle.lean ====
section
/-! SUPPORT. All that one cycle can do. -/

namespace Sys2Proof.Machine

theorem thenAdvance_next {o : Host.Outcome State Fault Refusal} {t : State} (h : thenAdvance o = .next t) :
    ∃ u, o = .next u ∧ t = u.advance := by
  cases o with
  | next u => cases h; exact ⟨u, rfl, rfl⟩
  | fault r => cases h
  | refused r => cases h

/-- A cycle that gives a next state: the machine is admitted, and either it idles and nothing changes, or it fetches a
word that decodes, executes it and advances. -/
theorem step_next {s t : State} (h : step s = .next t) :
    s.problem = none ∧ ((s.fetch = none ∧ t = s) ∨
      ∃ W i u, s.fetch = some W ∧ decode W = .ok i ∧ exec i s.clearJumped = .next u ∧ t = u.advance) := by
  unfold step at h
  split at h
  · cases h
  · next hp =>
    refine ⟨hp, ?_⟩
    split at h
    · next hf => cases h; exact .inl ⟨hf, rfl⟩
    · next W hf =>
      split at h
      · cases h
      · next i hd =>
        obtain ⟨u, hu, rfl⟩ := thenAdvance_next h
        exact .inr ⟨W, i, u, hf, hd, hu, rfl⟩

theorem step_of_problem {s : State} {r : Refusal} (h : s.problem = some r) : step s = .refused r := by
  simp only [step, h]

theorem step_of_fetch_none {s : State} (hp : s.problem = none) (hf : s.fetch = none) : step s = .next s := by
  simp only [step, hp, hf]

theorem step_of_decode {s : State} {W : OpWord} {i : Instr} (hp : s.problem = none) (hf : s.fetch = some W)
    (hd : decode W = .ok i) : step s = thenAdvance (exec i s.clearJumped) := by
  simp only [step, hp, hf, hd]

/-- Fetch finds nothing exactly where the PC is not below L. -/
theorem fetch_eq_none {s : State} : s.fetch = none ↔ s.prog.length ≤ s.pc.toNat := by
  unfold State.fetch
  split
  · next h => simp only [true_iff]; omega
  · next h => simp only [List.getElem?_eq_none_iff]

theorem fetch_eq_some {s : State} {W : OpWord} : s.fetch = some W ↔ s.prog[s.pc.toNat]? = some W := by
  unfold State.fetch
  split
  · next h =>
    have : s.prog[s.pc.toNat]? = none := List.getElem?_eq_none_iff.mpr (by omega)
    simp [this]
  · rfl

theorem firstIllFormed_eq_none {strict : Bool} {k : Nat} {p : List OpWord} :
    firstIllFormed strict k p = none ↔ ∀ W ∈ p, wordProblem strict W = none := by
  induction p generalizing k with
  | nil => simp [firstIllFormed]
  | cons W rest ih =>
    simp only [firstIllFormed, List.forall_mem_cons]
    cases wordProblem strict W with
    | none => simp [ih]
    | some e => simp

theorem wordProblem_eq_none {strict : Bool} {W : OpWord} :
    wordProblem strict W = none ↔ ∃ i, decode W = .ok i ∧ i.wf strict = true := by
  unfold wordProblem
  cases decode W with
  | error e => simp
  | ok i =>
    cases hk : i.kindsOk <;> cases ha : i.assigned <;> cases strict <;> simp [Instr.wf, hk, ha]

/-- The machine of a state is admitted exactly where its codec is lawful and its program has at most 65536 words, each
of which decodes to a well-formed operation. -/
theorem problem_eq_none {s : State} : s.problem = none ↔
    s.cfg.codec.lawful = true ∧ s.prog.length ≤ 65536 ∧
      ∀ W ∈ s.prog, ∃ i, decode W = .ok i ∧ i.wf s.cfg.strict = true := by
  simp only [State.problem, programProblem]
  by_cases hl : s.cfg.codec.lawful = true
  · by_cases hp : 65536 < s.prog.length
    · simp [hl, hp]
    · simp only [hl, hp, if_true, if_false, firstIllFormed_eq_none, wordProblem_eq_none, true_and]
      exact ⟨fun h => ⟨by omega, h⟩, fun h => h.2⟩
  · simp [hl]

/-- An admitted machine fetches only words that decode to well-formed operations. -/
theorem fetch_decodes {s : State} {W : OpWord} (hp : s.problem = none) (hf : s.fetch = some W) :
    ∃ i, decode W = .ok i ∧ i.wf s.cfg.strict = true :=
  (problem_eq_none.mp hp).2.2 W (List.mem_of_getElem? (fetch_eq_some.mp hf))

/-- No cycle changes the program store or the arguments. -/
theorem step_prog_cfg {s t : State} (h : step s = .next t) : t.prog = s.prog ∧ t.cfg = s.cfg := by
  obtain ⟨-, ⟨-, rfl⟩ | ⟨W, i, u, -, -, hu, rfl⟩⟩ := step_next h
  · exact ⟨rfl, rfl⟩
  · simpa using exec_prog_cfg hu

end Sys2Proof.Machine
end

