-- ==== Sys2Proof/Laws/Decode.lean ====
section
/-! SUPPORT. The fields of an encoded word and of an encoded slot, as numbers. -/

namespace Sys2Proof

/-- Concatenation is a sum. -/
theorem append_toNat {n m : Nat} (x : BitVec n) (y : BitVec m) : (x ++ y).toNat = x.toNat * 2 ^ m + y.toNat := by
  rw [BitVec.toNat_append, ← Nat.shiftLeft_add_eq_or_of_lt y.isLt, Nat.shiftLeft_eq]

/-- A bit field is a quotient and a remainder. -/
theorem field_toNat {n : Nat} (W : BitVec n) (lo len : Nat) :
    (W.extractLsb' lo len).toNat = W.toNat / 2 ^ lo % 2 ^ len := by
  rw [BitVec.extractLsb'_toNat, Nat.shiftRight_eq_div_pow]

/-- A word of an assigned opcode, as a number: its header's reserved bits are zero. -/
theorem packWord_toNat (op : BitVec 8) (s0 s1 s2 : Lane) :
    (packWord op s0 s1 s2).toNat = op.toNat * 2 ^ 120 + s0.toNat * 2 ^ 64 + s1.toNat * 2 ^ 32 + s2.toNat := by
  simp only [packWord, append_toNat]
  simp
  omega

theorem opcode_packWord (op : BitVec 8) (s0 s1 s2 : Lane) : opcode (packWord op s0 s1 s2) = op := by
  apply BitVec.eq_of_toNat_eq
  rw [opcode, field_toNat, packWord_toNat]
  have := op.isLt; have := s0.isLt; have := s1.isLt; have := s2.isLt
  omega

theorem headerReserved_packWord (op : BitVec 8) (s0 s1 s2 : Lane) : headerReserved (packWord op s0 s1 s2) = 0 := by
  apply BitVec.eq_of_toNat_eq
  rw [headerReserved, field_toNat, packWord_toNat]
  have := op.isLt; have := s0.isLt; have := s1.isLt; have := s2.isLt
  simp only [BitVec.ofNat_eq_ofNat, BitVec.toNat_ofNat]
  omega

theorem lane0_packWord (op : BitVec 8) (s0 s1 s2 : Lane) : lane0 (packWord op s0 s1 s2) = s0 := by
  apply BitVec.eq_of_toNat_eq
  rw [lane0, field_toNat, packWord_toNat]
  have := op.isLt; have := s0.isLt; have := s1.isLt; have := s2.isLt
  omega

theorem lane1_packWord (op : BitVec 8) (s0 s1 s2 : Lane) : lane1 (packWord op s0 s1 s2) = s1 := by
  apply BitVec.eq_of_toNat_eq
  rw [lane1, field_toNat, packWord_toNat]
  have := op.isLt; have := s0.isLt; have := s1.isLt; have := s2.isLt
  omega

theorem lane2_packWord (op : BitVec 8) (s0 s1 s2 : Lane) : lane2 (packWord op s0 s1 s2) = s2 := by
  apply BitVec.eq_of_toNat_eq
  rw [lane2, field_toNat, packWord_toNat]
  have := op.isLt; have := s0.isLt; have := s1.isLt; have := s2.isLt
  omega

/-- The slot of an encoded lane is the slot that was encoded: every field of every kind comes back. -/
theorem decodeSlot_encodeSlot (x : Slot) : decodeSlot (encodeSlot x) = .ok x := by
  cases x with
  | lit v =>
    have hv := v.isLt
    have e : (encodeSlot (.lit v)).toNat = v.toNat := by simp only [encodeSlot, append_toNat]; simp
    have r : (encodeSlot (.lit v)).extractLsb' 24 6 = 0#6 := BitVec.eq_of_toNat_eq (by rw [field_toNat, e]; simp; omega)
    have k : (encodeSlot (.lit v)).extractLsb' 30 2 = 0#2 := BitVec.eq_of_toNat_eq (by rw [field_toNat, e]; simp; omega)
    have u : (encodeSlot (.lit v)).extractLsb' 8 16 = 0#16 := BitVec.eq_of_toNat_eq (by rw [field_toNat, e]; simp; omega)
    have f : (encodeSlot (.lit v)).extractLsb' 0 8 = v := BitVec.eq_of_toNat_eq (by rw [field_toNat, e]; omega)
    simp [decodeSlot, r, k, u, f]
  | dir a =>
    have ha := a.isLt
    have e : (encodeSlot (.dir a)).toNat = 2 ^ 30 + a.toNat := by simp only [encodeSlot, append_toNat]; simp
    have r : (encodeSlot (.dir a)).extractLsb' 24 6 = 0#6 := BitVec.eq_of_toNat_eq (by rw [field_toNat, e]; simp; omega)
    have k : (encodeSlot (.dir a)).extractLsb' 30 2 = 1#2 := BitVec.eq_of_toNat_eq (by rw [field_toNat, e]; simp; omega)
    have u : (encodeSlot (.dir a)).extractLsb' 12 12 = 0#12 :=
      BitVec.eq_of_toNat_eq (by rw [field_toNat, e]; simp; omega)
    have f : (encodeSlot (.dir a)).extractLsb' 0 12 = a := BitVec.eq_of_toNat_eq (by rw [field_toNat, e]; omega)
    simp [decodeSlot, r, k, u, f]
  | ptr xc yc =>
    have hx := xc.isLt
    have hy := yc.isLt
    have e : (encodeSlot (.ptr xc yc)).toNat = 2 ^ 31 + yc.toNat * 2 ^ 12 + xc.toNat := by
      simp only [encodeSlot, append_toNat]; simp; omega
    have r : (encodeSlot (.ptr xc yc)).extractLsb' 24 6 = 0#6 :=
      BitVec.eq_of_toNat_eq (by rw [field_toNat, e]; simp; omega)
    have k : (encodeSlot (.ptr xc yc)).extractLsb' 30 2 = 2#2 :=
      BitVec.eq_of_toNat_eq (by rw [field_toNat, e]; simp; omega)
    have f : (encodeSlot (.ptr xc yc)).extractLsb' 0 12 = xc := BitVec.eq_of_toNat_eq (by rw [field_toNat, e]; omega)
    have g : (encodeSlot (.ptr xc yc)).extractLsb' 12 12 = yc := BitVec.eq_of_toNat_eq (by rw [field_toNat, e]; omega)
    simp [decodeSlot, r, k, f, g]
  | idx t =>
    have ht := t.isLt
    have e : (encodeSlot (.idx t)).toNat = 3 * 2 ^ 30 + t.toNat := by simp only [encodeSlot, append_toNat]; simp
    have r : (encodeSlot (.idx t)).extractLsb' 24 6 = 0#6 := BitVec.eq_of_toNat_eq (by rw [field_toNat, e]; simp; omega)
    have k : (encodeSlot (.idx t)).extractLsb' 30 2 = 3#2 := BitVec.eq_of_toNat_eq (by rw [field_toNat, e]; simp; omega)
    have u : (encodeSlot (.idx t)).extractLsb' 16 8 = 0#8 := BitVec.eq_of_toNat_eq (by rw [field_toNat, e]; simp; omega)
    have f : (encodeSlot (.idx t)).extractLsb' 0 16 = t := BitVec.eq_of_toNat_eq (by rw [field_toNat, e]; omega)
    simp [decodeSlot, r, k, u, f]

/-- All that the slot decoder can do: a lane it accepts is the encoding of the slot it gives. -/
theorem decodeSlot_ok {S : Lane} {x : Slot} (h : decodeSlot S = .ok x) : S = encodeSlot x := by
  have hS := S.isLt
  unfold decodeSlot at h
  split at h
  · cases h
  · next hr =>
    have r : S.toNat / 2 ^ 24 % 2 ^ 6 = 0 := by
      have := congrArg BitVec.toNat (not_not.mp hr); rwa [field_toNat] at this
    split at h
    · next hk =>
      have k : S.toNat / 2 ^ 30 % 2 ^ 2 = 0 := by have := congrArg BitVec.toNat hk; rwa [field_toNat] at this
      split at h
      · cases h
      · next hu =>
        have u : S.toNat / 2 ^ 8 % 2 ^ 16 = 0 := by
          have := congrArg BitVec.toNat (not_not.mp hu); rwa [field_toNat] at this
        cases h
        apply BitVec.eq_of_toNat_eq
        simp only [encodeSlot, append_toNat, field_toNat]
        simp
        omega
    · next hk0 =>
      split at h
      · next hk =>
        have k : S.toNat / 2 ^ 30 % 2 ^ 2 = 1 := by have := congrArg BitVec.toNat hk; rwa [field_toNat] at this
        split at h
        · cases h
        · next hu =>
          have u : S.toNat / 2 ^ 12 % 2 ^ 12 = 0 := by
            have := congrArg BitVec.toNat (not_not.mp hu); rwa [field_toNat] at this
          cases h
          apply BitVec.eq_of_toNat_eq
          simp only [encodeSlot, append_toNat, field_toNat]
          simp
          omega
      · next hk1 =>
        split at h
        · next hk =>
          have k : S.toNat / 2 ^ 30 % 2 ^ 2 = 2 := by have := congrArg BitVec.toNat hk; rwa [field_toNat] at this
          cases h
          apply BitVec.eq_of_toNat_eq
          simp only [encodeSlot, append_toNat, field_toNat]
          simp
          omega
        · next hk2 =>
          have k : S.toNat / 2 ^ 30 % 2 ^ 2 = 3 := by
            have b0 := mt BitVec.eq_of_toNat_eq hk0
            have b1 := mt BitVec.eq_of_toNat_eq hk1
            have b2 := mt BitVec.eq_of_toNat_eq hk2
            rw [field_toNat] at b0 b1 b2
            simp at b0 b1 b2
            omega
          split at h
          · cases h
          · next hu =>
            have u : S.toNat / 2 ^ 16 % 2 ^ 8 = 0 := by
              have := congrArg BitVec.toNat (not_not.mp hu); rwa [field_toNat] at this
            cases h
            apply BitVec.eq_of_toNat_eq
            simp only [encodeSlot, append_toNat, field_toNat]
            simp
            omega

theorem checkHeader_ok {W : OpWord} {u : Unit} : checkHeader W = .ok u ↔ headerReserved W = 0 := by
  unfold checkHeader; split <;> rename_i h <;> simpa using h

theorem checkUnused_ok {S : Lane} {u : Unit} : checkUnused S = .ok u ↔ S = 0 := by
  unfold checkUnused; split <;> rename_i h <;> simpa using h

theorem checkKinds_ok {i j : Instr} : checkKinds i = .ok j ↔ j = i ∧ i.kindsOk = true := by
  unfold checkKinds
  split
  · next h => simp [h, eq_comm]
  · next h => simp [h]

/-- A word whose header's reserved bits are zero is packed from its opcode and its lanes. -/
theorem packWord_lanes {W : OpWord} (h : headerReserved W = 0) :
    packWord (opcode W) (lane0 W) (lane1 W) (lane2 W) = W := by
  have r : W.toNat / 2 ^ 96 % 2 ^ 24 = 0 := by
    have := congrArg BitVec.toNat h; rwa [headerReserved, field_toNat] at this
  have := W.isLt
  apply BitVec.eq_of_toNat_eq
  rw [packWord_toNat, opcode, lane0, lane1, lane2, field_toNat, field_toNat, field_toNat, field_toNat]
  omega

/-- A sequence of checks succeeds where each does. -/
theorem except_bind_ok {ε α β : Type} {x : Except ε α} {f : α → Except ε β} {b : β} :
    (x >>= f) = .ok b ↔ ∃ a, x = .ok a ∧ f a = .ok b := by
  cases x <;> simp [bind, Except.bind]

/-- All that decoding an operation with one used slot can do. -/
theorem decodeOne_ok {W : OpWord} {mk : Slot → Instr} {i : Instr} : decodeOne W mk = .ok i ↔
    headerReserved W = 0 ∧ ∃ x, decodeSlot (lane0 W) = .ok x ∧ lane1 W = 0 ∧ lane2 W = 0 ∧
      i = mk x ∧ (mk x).kindsOk = true := by
  simp only [decodeOne, except_bind_ok, checkHeader_ok, checkUnused_ok, checkKinds_ok]
  constructor
  · rintro ⟨_, h, x, hx, _, h1, _, h2, hk⟩; exact ⟨h, x, hx, h1, h2, hk⟩
  · rintro ⟨h, x, hx, h1, h2, hk⟩; exact ⟨(), h, x, hx, (), h1, (), h2, hk⟩

/-- All that decoding an operation with two used slots can do. -/
theorem decodeTwo_ok {W : OpWord} {mk : Slot → Slot → Instr} {i : Instr} : decodeTwo W mk = .ok i ↔
    headerReserved W = 0 ∧ ∃ x y, decodeSlot (lane0 W) = .ok x ∧ decodeSlot (lane1 W) = .ok y ∧ lane2 W = 0 ∧
      i = mk x y ∧ (mk x y).kindsOk = true := by
  simp only [decodeTwo, except_bind_ok, checkHeader_ok, checkUnused_ok, checkKinds_ok]
  constructor
  · rintro ⟨_, h, x, hx, y, hy, _, h2, hk⟩; exact ⟨h, x, y, hx, hy, h2, hk⟩
  · rintro ⟨h, x, y, hx, hy, h2, hk⟩; exact ⟨(), h, x, hx, y, hy, (), h2, hk⟩

/-- All that decoding an operation with three used slots can do. -/
theorem decodeThree_ok {W : OpWord} {mk : Slot → Slot → Slot → Instr} {i : Instr} : decodeThree W mk = .ok i ↔
    headerReserved W = 0 ∧ ∃ x y z, decodeSlot (lane0 W) = .ok x ∧ decodeSlot (lane1 W) = .ok y ∧
      decodeSlot (lane2 W) = .ok z ∧ i = mk x y z ∧ (mk x y z).kindsOk = true := by
  simp only [decodeThree, except_bind_ok, checkHeader_ok, checkKinds_ok]
  constructor
  · rintro ⟨_, h, x, hx, y, hy, z, hz, hk⟩; exact ⟨h, x, y, z, hx, hy, hz, hk⟩
  · rintro ⟨h, x, y, z, hx, hy, hz, hk⟩; exact ⟨(), h, x, hx, y, hy, z, hz, hk⟩

/-- An opcode in front of the other 120 bits. -/
theorem opcode_append (op : BitVec 8) (rest : BitVec 120) : opcode (op ++ rest) = op := by
  apply BitVec.eq_of_toNat_eq
  rw [opcode, field_toNat, append_toNat]
  have := op.isLt; have := rest.isLt
  omega

theorem belowOpcode_append (op : BitVec 8) (rest : BitVec 120) : belowOpcode (op ++ rest) = rest := by
  apply BitVec.eq_of_toNat_eq
  rw [belowOpcode, field_toNat, append_toNat]
  have := op.isLt; have := rest.isLt
  omega

/-- A word is its opcode and what stands below it. -/
theorem opcode_append_belowOpcode (W : OpWord) : opcode W ++ belowOpcode W = W := by
  apply BitVec.eq_of_toNat_eq
  rw [append_toNat, opcode, belowOpcode, field_toNat, field_toNat]
  have := W.isLt
  omega

theorem wordBytes_length (W : OpWord) : (wordBytes W).length = 16 := by simp [wordBytes]

end Sys2Proof
end

