-- ==== Sys2Proof/Laws/HostEvents.lean ====
section
/-! SUPPORT. All that a host event can do. -/

namespace Sys2Proof.Machine

/-- A program load that is not refused: the program is one of this machine. -/
theorem loadProgram_next {p : List OpWord} {s t : State} (h : loadProgram p s = .next t) :
    programProblem s.cfg.strict p = none ∧ t = ({ s with prog := p } : State).setPc 0 := by
  unfold loadProgram at h
  split at h
  · cases h
  · next hp => cases h; exact ⟨hp, rfl⟩

/-- A stream that is not refused fits the grid. -/
theorem bulkLoad_next {bytes : List Byte} {s t : State} (h : bulkLoad bytes s = .next t) :
    bytes.length ≤ 4096 ∧ t = packFrom 0 bytes s := by
  unfold bulkLoad at h
  split at h
  · cases h
  · cases h; exact ⟨by omega, rfl⟩

/-- Packing a stream changes the grid alone. -/
theorem packFrom_fields (bytes : List Byte) (k : Nat) (s : State) :
    (packFrom k bytes s).jumped = s.jumped ∧ (packFrom k bytes s).prog = s.prog ∧ (packFrom k bytes s).cfg = s.cfg ∧
      (packFrom k bytes s).rndIn = s.rndIn ∧ (packFrom k bytes s).draws = s.draws := by
  induction bytes generalizing k s with
  | nil => exact ⟨rfl, rfl, rfl, rfl, rfl⟩
  | cons v rest ih => exact ih (k + 1) _

/-- The canonical form outlives a stream. -/
theorem packFrom_wf (bytes : List Byte) (k : Nat) {s : State} (h : s.grid.wf = true) :
    (packFrom k bytes s).grid.wf = true := by
  induction bytes generalizing k s with
  | nil => exact h
  | cons v rest ih => exact ih (k + 1) (memWrite_wf _ _ h)

end Sys2Proof.Machine
end

