-- ==== Sys2Proof/Laws/PerInstr.lean ====
section
/-! SUPPORT. Every operation's word against its row of spec/opcode_table.json: the bits of the row's mask are the bits of its
match. -/

namespace Sys2Proof

/-- The "mask" of the operation's row in spec/opcode_table.json. -/
def rowMask : Instr → OpWord
  | .cpy _ _ => 0xFFFFFFFF3F0000003F000000FFFFFFFF#128
  | .add _ _ _ => 0xFFFFFFFF3F0000003F0000003F000000#128
  | .sub _ _ _ => 0xFFFFFFFF3F0000003F0000003F000000#128
  | .mul _ _ _ => 0xFFFFFFFF3F0000003F0000003F000000#128
  | .rng _ => 0xFFFFFFFF3F000000FFFFFFFFFFFFFFFF#128
  | .jmp _ => 0xFFFFFFFFFFFF0000FFFFFFFFFFFFFFFF#128
  | .nop00 _ => 0xFF000000000000000000000000000000#128
  | .nop07 _ => 0xFF000000000000000000000000000000#128
  | .nop08 _ _ => 0xF8000000000000000000000000000000#128
  | .nop10 _ _ => 0xF0000000000000000000000000000000#128
  | .nop20 _ _ => 0xE0000000000000000000000000000000#128
  | .nop40 _ _ => 0xC0000000000000000000000000000000#128
  | .nop80 _ _ => 0x80000000000000000000000000000000#128

/-- The "match" of the operation's row in spec/opcode_table.json. -/
def rowMatch : Instr → OpWord
  | .cpy _ _ => 0x01000000000000000000000000000000#128
  | .add _ _ _ => 0x02000000000000000000000000000000#128
  | .sub _ _ _ => 0x03000000000000000000000000000000#128
  | .mul _ _ _ => 0x04000000000000000000000000000000#128
  | .rng _ => 0x05000000000000000000000000000000#128
  | .jmp _ => 0x06000000C00000000000000000000000#128
  | .nop00 _ => 0x00000000000000000000000000000000#128
  | .nop07 _ => 0x07000000000000000000000000000000#128
  | .nop08 _ _ => 0x08000000000000000000000000000000#128
  | .nop10 _ _ => 0x10000000000000000000000000000000#128
  | .nop20 _ _ => 0x20000000000000000000000000000000#128
  | .nop40 _ _ => 0x40000000000000000000000000000000#128
  | .nop80 _ _ => 0x80000000000000000000000000000000#128

/-- A slot's reserved bits are encoded as zero. -/
theorem encodeSlot_and_reserved (x : Slot) : encodeSlot x &&& 0x3F000000#32 = 0#32 := by
  cases x with
  | lit v =>
    exact (BitVec.and_append (x₁ := 0b00#2 ++ 0#6 ++ 0#16) (x₂ := 0x3F0000#24) (y₁ := v) (y₂ := 0#8)).trans (by simp)
  | dir a =>
    exact (BitVec.and_append (x₁ := 0b01#2 ++ 0#6 ++ 0#12) (x₂ := 0x3F000#20) (y₁ := a) (y₂ := 0#12)).trans (by simp)
  | ptr xc yc =>
    have h : (0b10#2 ++ 0#6 ++ yc) &&& (0x3F000#20) = 0#20 :=
      (BitVec.and_append (x₁ := 0b10#2 ++ 0#6) (x₂ := 0x3F#8) (y₁ := yc) (y₂ := 0#12)).trans (by simp)
    exact (BitVec.and_append (x₁ := 0b10#2 ++ 0#6 ++ yc) (x₂ := 0x3F000#20) (y₁ := xc) (y₂ := 0#12)).trans
      ((congrArg (· ++ (xc &&& 0#12)) h).trans (by simp))
  | idx t =>
    exact (BitVec.and_append (x₁ := 0b11#2 ++ 0#6 ++ 0#8) (x₂ := 0x3F00#16) (y₁ := t) (y₂ := 0#16)).trans (by simp)

/-- A jump slot's kind and unused payload bits. -/
theorem encodeSlot_and_index {x : Slot} (h : x.isIndex = true) : encodeSlot x &&& 0xFFFF0000#32 = 0xC0000000#32 := by
  cases x with
  | idx t =>
    exact (BitVec.and_append (x₁ := 0b11#2 ++ 0#6 ++ 0#8) (x₂ := 0xFFFF#16) (y₁ := t) (y₂ := 0#16)).trans (by simp)
  | lit v => cases h
  | dir a => cases h
  | ptr xc yc => cases h

/-- A packed word against a mask that takes all of the header, lane by lane. -/
theorem packWord_and (op : BitVec 8) (s0 s1 s2 m0 m1 m2 : Lane) :
    packWord op s0 s1 s2 &&& (0xFF#8 ++ 0xFFFFFF#24 ++ m0 ++ m1 ++ m2) =
      packWord op (s0 &&& m0) (s1 &&& m1) (s2 &&& m2) := by
  have hop : op &&& 0xFF#8 = op := by simpa using BitVec.and_allOnes (x := op)
  have h0 : (op ++ 0#24) &&& (0xFF#8 ++ 0xFFFFFF#24) = op ++ 0#24 := by rw [BitVec.and_append, hop]; simp
  have h1 : (op ++ 0#24 ++ s0) &&& (0xFF#8 ++ 0xFFFFFF#24 ++ m0) = op ++ 0#24 ++ (s0 &&& m0) := by
    rw [BitVec.and_append, h0]
  have h2 : (op ++ 0#24 ++ s0 ++ s1) &&& (0xFF#8 ++ 0xFFFFFF#24 ++ m0 ++ m1) =
      op ++ 0#24 ++ (s0 &&& m0) ++ (s1 &&& m1) := by rw [BitVec.and_append, h1]
  exact (BitVec.and_append (x₁ := op ++ 0#24 ++ s0 ++ s1) (x₂ := 0xFF#8 ++ 0xFFFFFF#24 ++ m0 ++ m1) (y₁ := s2)
    (y₂ := m2)).trans (congrArg (· ++ (s2 &&& m2)) h2)

/-- A word of an unassigned opcode against a mask of opcode bits alone. -/
theorem opcode_and (op m : BitVec 8) (rest : BitVec 120) : (op ++ rest) &&& (m ++ 0#120) = (op &&& m) ++ 0#120 := by
  rw [BitVec.and_append]; simp

end Sys2Proof

namespace Sys2Proof.Laws.TableRow

/-- A well-formed operation's word agrees with its row of the opcode table. -/
def Statement (i : Instr) : Prop := i.kindsOk = true → encode i &&& rowMask i = rowMatch i

theorem cpy (dst src : Slot) : Statement (.cpy dst src) := by
  intro _
  refine (packWord_and _ _ _ _ 0x3F000000#32 0x3F000000#32 0xFFFFFFFF#32).trans ?_
  simp only [encodeSlot_and_reserved]
  rfl

theorem add (dst a b : Slot) : Statement (.add dst a b) := by
  intro _
  refine (packWord_and _ _ _ _ 0x3F000000#32 0x3F000000#32 0x3F000000#32).trans ?_
  simp only [encodeSlot_and_reserved]
  rfl

theorem sub (dst a b : Slot) : Statement (.sub dst a b) := by
  intro _
  refine (packWord_and _ _ _ _ 0x3F000000#32 0x3F000000#32 0x3F000000#32).trans ?_
  simp only [encodeSlot_and_reserved]
  rfl

theorem mul (dst a b : Slot) : Statement (.mul dst a b) := by
  intro _
  refine (packWord_and _ _ _ _ 0x3F000000#32 0x3F000000#32 0x3F000000#32).trans ?_
  simp only [encodeSlot_and_reserved]
  rfl

theorem rng (dst : Slot) : Statement (.rng dst) := by
  intro _
  refine (packWord_and _ _ _ _ 0x3F000000#32 0xFFFFFFFF#32 0xFFFFFFFF#32).trans ?_
  simp only [encodeSlot_and_reserved]
  rfl

theorem jmp (target : Slot) : Statement (.jmp target) := by
  intro h
  refine (packWord_and _ _ _ _ 0xFFFF0000#32 0xFFFFFFFF#32 0xFFFFFFFF#32).trans ?_
  simp only [encodeSlot_and_index (x := target) h]
  rfl

theorem nop00 (rest : BitVec 120) : Statement (.nop00 rest) := by
  intro _
  exact (opcode_and 0x00#8 0xFF#8 rest).trans rfl

theorem nop07 (rest : BitVec 120) : Statement (.nop07 rest) := by
  intro _
  exact (opcode_and 0x07#8 0xFF#8 rest).trans rfl

theorem nop08 (op : BitVec 3) (rest : BitVec 120) : Statement (.nop08 op rest) := by
  intro _
  have h : ∀ op : BitVec 3, (0b00001#5 ++ op) &&& 0xF8#8 = 0x08#8 := by decide
  exact (opcode_and (0b00001#5 ++ op) 0xF8#8 rest).trans (congrArg (· ++ 0#120) (h op))

theorem nop10 (op : BitVec 4) (rest : BitVec 120) : Statement (.nop10 op rest) := by
  intro _
  have h : ∀ op : BitVec 4, (0b0001#4 ++ op) &&& 0xF0#8 = 0x10#8 := by decide
  exact (opcode_and (0b0001#4 ++ op) 0xF0#8 rest).trans (congrArg (· ++ 0#120) (h op))

theorem nop20 (op : BitVec 5) (rest : BitVec 120) : Statement (.nop20 op rest) := by
  intro _
  have h : ∀ op : BitVec 5, (0b001#3 ++ op) &&& 0xE0#8 = 0x20#8 := by decide
  exact (opcode_and (0b001#3 ++ op) 0xE0#8 rest).trans (congrArg (· ++ 0#120) (h op))

theorem nop40 (op : BitVec 6) (rest : BitVec 120) : Statement (.nop40 op rest) := by
  intro _
  have h : ∀ op : BitVec 6, (0b01#2 ++ op) &&& 0xC0#8 = 0x40#8 := by decide
  exact (opcode_and (0b01#2 ++ op) 0xC0#8 rest).trans (congrArg (· ++ 0#120) (h op))

theorem nop80 (op : BitVec 7) (rest : BitVec 120) : Statement (.nop80 op rest) := by
  intro _
  have h : ∀ op : BitVec 7, (0b1#1 ++ op) &&& 0x80#8 = 0x80#8 := by decide
  exact (opcode_and (0b1#1 ++ op) 0x80#8 rest).trans (congrArg (· ++ 0#120) (h op))

end Sys2Proof.Laws.TableRow
end

