-- ==== Sys2Proof/Laws/Trace.lean ====
section
/-! SUPPORT. Access traces: what replaying reads and writes does to a grid, and which cells a trace writes. -/

namespace Sys2Proof.Machine

theorem replay_append (m : Memory) (xs ys : List Access) : m.replay (xs ++ ys) = (m.replay xs).replay ys := by
  induction xs generalizing m with
  | nil => rfl
  | cons x xs ih => exact ih _

/-- Reads leave the grid alone. -/
theorem replay_reads (m : Memory) (s : State) (cells : List Cell) : m.replay (cells.map s.readAccess) = m := by
  induction cells with
  | nil => rfl
  | cons c cells ih => exact ih

/-- Replaying the write accesses of some byte writes is making the writes. -/
theorem replay_writes (ws : List (Cell × Byte)) {s r : State} (hc : r.cfg = s.cfg) :
    s.grid.replay (writeAccesses r ws) = (s.writeAll ws).grid := by
  induction ws generalizing s with
  | nil => rfl
  | cons w ws ih =>
    obtain ⟨a, v⟩ := w
    simp only [writeAccesses, List.map_cons, Memory.replay, Memory.after, State.writeAll] at ih ⊢
    rw [← ih (s := s.memWrite a v) hc, hc]
    rfl

theorem writtenCells_append (xs ys : List Access) : writtenCells (xs ++ ys) = writtenCells xs ++ writtenCells ys := by
  induction xs with
  | nil => rfl
  | cons x xs ih => cases x <;> simp [writtenCells, ih]

theorem writtenCells_reads (s : State) (cells : List Cell) : writtenCells (cells.map s.readAccess) = [] := by
  induction cells with
  | nil => rfl
  | cons c cells ih => exact ih

theorem writtenCells_writes (s : State) (ws : List (Cell × Byte)) : writtenCells (writeAccesses s ws) = ws.map (·.1) := by
  induction ws with
  | nil => rfl
  | cons w ws ih => exact congrArg (w.1 :: ·) ih

theorem writeAll_cfg (ws : List (Cell × Byte)) (s : State) : (s.writeAll ws).cfg = s.cfg := by
  induction ws generalizing s with
  | nil => rfl
  | cons w ws ih => exact ih _

/-- Writes leave every other cell alone. -/
theorem writeAll_colourAt {ws : List (Cell × Byte)} {s : State} {b : Cell} (h : ∀ w ∈ ws, w.1 ≠ b) :
    (s.writeAll ws).colourAt b = s.colourAt b := by
  induction ws generalizing s with
  | nil => rfl
  | cons w ws ih =>
    rw [List.forall_mem_cons] at h
    exact (ih h.2).trans (by rw [memWrite_colourAt, if_neg (Ne.symm h.1)])

/-- The writes that the trace computes are the writes that Execute makes. -/
theorem exec_grid {i : Instr} {s u : State} (h : exec i s = .next u) :
    u.grid = (s.writeAll (executeWrites s i)).grid := by
  cases i with
  | cpy dst src =>
    obtain ⟨v, a, hv, ha, rfl⟩ := storeByte_next h
    simp [executeWrites, oneWrite, hv, ha, State.writeAll]
  | add dst x y =>
    obtain ⟨v, w, a, hv, hw, ha, rfl⟩ := arithmetic_next h
    simp [executeWrites, oneWrite, hv, hw, ha, State.writeAll, addByte, BitVec.ofNat_add]
  | sub dst x y =>
    obtain ⟨v, w, a, hv, hw, ha, rfl⟩ := arithmetic_next h
    have e : subByte v w = v - w := by
      apply BitVec.eq_of_toNat_eq
      simp only [subByte, BitVec.toNat_ofInt, BitVec.toNat_sub]
      omega
    simp [executeWrites, oneWrite, hv, hw, ha, State.writeAll, e]
  | mul dst x y =>
    obtain ⟨v, w, a, hv, hw, ha, rfl⟩ := arithmetic_next h
    have e : mulByte v w = v * w := by apply BitVec.eq_of_toNat_eq; simp [mulByte]
    simp [executeWrites, oneWrite, hv, hw, ha, State.writeAll, e]
  | rng dst =>
    obtain ⟨v, a, hv, ha, rfl⟩ := storeByte_next h
    cases hv
    rw [drawn_dest?] at ha
    simp [executeWrites, oneWrite, ha, State.writeAll]
  | jmp target =>
    cases target with
    | idx x => cases h; rfl
    | lit v => cases h
    | dir a => cases h
    | ptr xc yc => cases h
  | nop00 rest => rw [(unassigned_next h).2]; rfl
  | nop07 rest => rw [(unassigned_next h).2]; rfl
  | nop08 op rest => rw [(unassigned_next h).2]; rfl
  | nop10 op rest => rw [(unassigned_next h).2]; rfl
  | nop20 op rest => rw [(unassigned_next h).2]; rfl
  | nop40 op rest => rw [(unassigned_next h).2]; rfl
  | nop80 op rest => rw [(unassigned_next h).2]; rfl

end Sys2Proof.Machine
end

