-- ==== Sys2Proof/Tests/Slice0.lean ====
section
/-! SUPPORT. The model's own tests: expected values are the spec's own tables and vectors (spec/95_test_vectors.md, cited as
V1 to V44, S1 to S7, P1 to P6, and rules R33, R34, R66), and the witnesses that meet the hypotheses of the statements. -/

namespace Sys2Proof.Tests

open Sys2Proof Sys2Proof.Machine Sys2Proof.Claims

/-! Helpers. -/

/-- STRICT = false with `CODEC_BIJ`. -/
def bij : Config := { codec := .bij, strict := false }

/-- STRICT = false with `CODEC_REF`: the defaults. -/
def ref : Config := Config.default

/-- The machine with the program `p` and the PC cells blank. -/
def loaded (c : Config) (p : List OpWord) : State := { State.reset with prog := p, cfg := c }

/-- The start of the vectors: grid blank, the one word `W` at the indices below `n`, then host writes. -/
def start (c : Config) (W : OpWord) (n : Nat) (pre : List (Cell × Byte)) : State :=
  pre.foldl (fun s w => hostWrite w.1 w.2 s) (loaded c (List.replicate n W))

/-- What some cells read after an outcome; none where it is no next state. -/
def readCells (cells : List Cell) : Host.Outcome State Fault Refusal → Option (List Nat)
  | .next t => some (cells.map fun a => (t.memRead a).toNat)
  | .fault _ => none
  | .refused _ => none

/-- The PC after an outcome. -/
def readPc : Host.Outcome State Fault Refusal → Option Nat
  | .next t => some t.pc.toNat
  | .fault _ => none
  | .refused _ => none

/-- Why an outcome is a refusal. -/
def why : Host.Outcome State Fault Refusal → Option Refusal
  | .next _ => none
  | .fault _ => none
  | .refused r => some r

/-- One cycle of the vectors, and what some cells then read. -/
def cycle (c : Config) (W : OpWord) (pre : List (Cell × Byte)) (cells : List Cell) : Option (List Nat) :=
  readCells cells (step (start c W 1 pre))

/-- One cycle of the vectors with the byte `b` on the port `rnd`. -/
def cycleRnd (c : Config) (W : OpWord) (pre : List (Cell × Byte)) (b : Byte) (cells : List Cell) : Option (List Nat) :=
  readCells cells (step { start c W 1 pre with rndIn := [b] })

/-- The PC after one cycle of the vectors with L = `n`. -/
def pcAfter (c : Config) (W : OpWord) (n : Nat) (pre : List (Cell × Byte)) : Option Nat :=
  readPc (step (start c W n pre))

/-! WellFormed: one ill-formed term for each check (R56, R59, R62). -/

theorem test_cpy_literal_destination_refused : (Instr.cpy (.lit 5) (.lit 5)).wf false = false := by decide
theorem test_cpy_index_source_refused : (Instr.cpy (.dir 0) (.idx 1)).wf false = false := by decide
theorem test_add_index_destination_refused : (Instr.add (.idx 0) (.lit 1) (.lit 2)).wf false = false := by decide
theorem test_add_index_first_source_refused : (Instr.add (.dir 0) (.idx 1) (.lit 2)).wf false = false := by decide
theorem test_sub_index_second_source_refused : (Instr.sub (.dir 0) (.lit 1) (.idx 2)).wf false = false := by decide
theorem test_sub_literal_destination_refused : (Instr.sub (.lit 0) (.lit 1) (.lit 2)).wf false = false := by decide
theorem test_mul_literal_destination_refused : (Instr.mul (.lit 0) (.lit 1) (.lit 2)).wf false = false := by decide
theorem test_mul_index_source_refused : (Instr.mul (.dir 0) (.lit 1) (.idx 2)).wf false = false := by decide
theorem test_rng_index_destination_refused : (Instr.rng (.idx 1)).wf false = false := by decide
theorem test_rng_literal_destination_refused : (Instr.rng (.lit 1)).wf false = false := by decide
theorem test_jmp_literal_refused : (Instr.jmp (.lit 3)).wf false = false := by decide
theorem test_jmp_direct_refused : (Instr.jmp (.dir 3)).wf false = false := by decide
theorem test_jmp_pointer_refused : (Instr.jmp (.ptr 3 4)).wf false = false := by decide
theorem test_unassigned_refused_under_strict : (Instr.nop00 0).wf true = false := by decide
theorem test_unassigned_legal_without_strict : (Instr.nop00 0).wf false = true := by decide
theorem test_assigned_legal_under_strict : (Instr.cpy (.ptr 1 2) (.ptr 3 4)).wf true = true := by decide

/-! Decode: words written out from R50 to R56. -/

/-- Section 2.7, first word: every field of an `add` with one operand of each source kind. -/
theorem test_decode_add : decode 0x02000000400000408003F040000000FA#128 =
    .ok (.add (.dir 64) (.ptr 64 63) (.lit 250)) := by decide
theorem test_decode_cpy : decode 0x01000000400000000000000500000000#128 = .ok (.cpy (.dir 0) (.lit 5)) := by decide
/-- V1: S1 is a pointer, xc = 100, yc = 101. -/
theorem test_decode_cpy_pointer : decode 0x01000000400000008006506400000000#128 =
    .ok (.cpy (.dir 0) (.ptr 100 101)) := by decide
/-- P3 index 4: the order of minuend and subtrahend. -/
theorem test_decode_sub : decode 0x03000000400000034000000200000032#128 =
    .ok (.sub (.dir 3) (.dir 2) (.lit 50)) := by decide
theorem test_decode_mul : decode 0x04000000400000400000000700000006#128 =
    .ok (.mul (.dir 64) (.lit 7) (.lit 6)) := by decide
theorem test_decode_rng : decode 0x05000000800150140000000000000000#128 = .ok (.rng (.ptr 20 21)) := by decide
theorem test_decode_jmp : decode 0x06000000C00012340000000000000000#128 = .ok (.jmp (.idx 0x1234)) := by decide
theorem test_decode_nop00 : decode 0#128 = .ok (.nop00 0) := by decide
theorem test_decode_nop07 : decode 0x07000000400000000000000500000000#128 =
    .ok (.nop07 0x000000400000000000000500000000#120) := by decide
theorem test_decode_nop08 : decode 0x0D000000000000000000000000000001#128 = .ok (.nop08 5 1) := by decide
theorem test_decode_nop10 : decode 0x1A000000000000000000000000000000#128 = .ok (.nop10 0xA 0) := by decide
theorem test_decode_nop20 : decode 0x3F000000000000000000000000000000#128 = .ok (.nop20 0x1F 0) := by decide
theorem test_decode_nop40 : decode 0x55000000000000000000000000000000#128 = .ok (.nop40 0x15 0) := by decide
theorem test_decode_nop80 : decode 0xFFFFFFFFFFFFFFFFFFFFFFFFFFFFFFFF#128 =
    .ok (.nop80 0x7F 0xFFFFFFFFFFFFFFFFFFFFFFFFFFFFFF#120) := by decide

/-! The ill-formed words of section 2.7, each with the rule it breaks. -/

theorem test_ill_cpy_literal_destination : decode 0x01000000000000050000000500000000#128 = .error .operandKind := by decide
theorem test_ill_rng_index : decode 0x05000000C00000010000000000000000#128 = .error .operandKind := by decide
theorem test_ill_jmp_literal : decode 0x06000000000000030000000000000000#128 = .error .operandKind := by decide
theorem test_ill_jmp_direct : decode 0x06000000400000030000000000000000#128 = .error .operandKind := by decide
theorem test_ill_index_source : decode 0x0100000040000000C000000100000000#128 = .error .operandKind := by decide
theorem test_ill_cpy_third_slot : decode 0x01000000400000000000000500000001#128 = .error .unusedSlot := by decide
theorem test_ill_rng_second_slot : decode 0x05000000400000000000000100000000#128 = .error .unusedSlot := by decide
theorem test_ill_header : decode 0x01000001400000000000000500000000#128 = .error .headerReserved := by decide
theorem test_ill_slot_reserved : decode 0x01000000410000000000000500000000#128 = .error .slotReserved := by decide
theorem test_ill_direct_payload : decode 0x01000000400010000000000500000000#128 = .error .payloadUnused := by decide
theorem test_ill_literal_payload : decode 0x01000000400000000000010000000000#128 = .error .payloadUnused := by decide
theorem test_ill_index_payload : decode 0x06000000C00100000000000000000000#128 = .error .payloadUnused := by decide
/-- Section 2.7, last row: an unassigned opcode under STRICT. -/
theorem test_ill_strict : why (step (loaded { codec := .ref, strict := true } [0])) =
    some (.illFormedWord 0 .unassignedUnderStrict) := by decide
/-- R61: the program is refused although the PC is at another index. -/
theorem test_ill_word_elsewhere : why (step (loaded ref [0, 0x01000000000000050000000500000000#128])) =
    some (.illFormedWord 1 .operandKind) := by decide

/-! Words as bytes and as the host's numbers (R49; log entry 9). -/

theorem test_word_bytes : wordBytes 0x01000000400000000000000500000000#128 =
    [1, 0, 0, 0, 0x40, 0, 0, 0, 0, 0, 0, 5, 0, 0, 0, 0] := by decide
theorem test_image_of_odd_length : imageProgram [1, 2, 3] = none := by decide
theorem test_table_word : decodeTableWord 128 0x06000000C00000030000000000000000 = some (.jmp (.idx 3)) := by decide
theorem test_table_word_refused : decodeTableWord 128 0x06000000000000030000000000000000 = none := by decide

/-! The codec (R33, R34, section 2.1). -/

theorem test_encode_ref : [5, 10, 250, 128, 255].map encodeRef =
    [0x004040FF#32, 0x008080FF#32, 0xE08080FF#32, 0x000000FF#32, 0xE0C0C0FF#32] := by decide
theorem test_decode_ref : [0x00000000#32, 0xFFFFFFFF#32, 0x1F3F3F00#32, 0xE0000000#32, 0x00C00000#32, 0x0000C000#32].map
    decodeRef = [0, 127, 0, 112, 12, 3] := by decide
theorem test_encode_bij : [0, 5, 10, 128, 200, 250, 255].map encodeBij =
    [0x000000FF#32, 0x002040FF#32, 0x004080FF#32, 0x800000FF#32, 0xC04000FF#32, 0xE0C080FF#32, 0xE0E0C0FF#32] := by decide
/-- S1: the whole round-trip table of `CODEC_REF`. -/
theorem test_round_trip_table : ∀ b : Byte, Codec.ref.rt b = b % 128 := by decide

/-! `cpy` and the operand forms (V1 to V7, V36, V37). -/

theorem test_cpy_pointer_source : cycle ref 0x01000000400000008006506400000000#128 [(100, 70), (101, 130), (134, 55)] [0] =
    some [55] := by decide
theorem test_cpy_pointer_destination : cycle ref 0x01000000800150140000004D00000000#128 [(20, 5), (21, 10)] [645] =
    some [77] := by decide
/-- V7: the target is resolved from the old contents of the x-cell that is overwritten. -/
theorem test_operand_own_cell : cycle ref 0x010000008003D03C0000000300000000#128 [(60, 60), (61, 0)] [60, 61] =
    some [3, 0] := by decide
/-- V4: one cell is both cells of the pointer. -/
theorem test_operand_same_cell : cycle bij 0x010000008001E01E0000000900000000#128 [(30, 7)] [455, 30] = some [9, 7] := by decide
/-- V6: a pointer to the PC's low byte. -/
theorem test_operand_pointer_to_pc : pcAfter ref 0x01000000800330320000000900000000#128 16 [(50, 62), (51, 63)] =
    some 10 := by decide

/-! Arithmetic (V9 to V18). -/

theorem test_add_wraps : cycle bij 0x0200000040000000000000FF000000FF#128 [] [0] = some [254] := by decide
/-- V11: the operand in the cell has lost bit 7. -/
theorem test_add_lossy_cell : cycle ref 0x0200000040000000400000050000000A#128 [(5, 250)] [0] = some [4] := by decide
theorem test_sub_borrows : cycle bij 0x03000000400000000000000300000005#128 [] [0] = some [254] := by decide
theorem test_sub_lossy_result : cycle ref 0x03000000400000000000000300000005#128 [] [0] = some [126] := by decide
theorem test_mul_low_byte : cycle bij 0x0400000040000000000000FF000000FF#128 [] [0] = some [1] := by decide
theorem test_mul_lossy_result : cycle ref 0x0400000040000000000000C800000002#128 [] [0] = some [16] := by decide

/-! `rng` (V22, V24). -/

theorem test_rng_ref : cycleRnd ref 0x05000000400000000000000000000000#128 [] 255 [0] = some [127] := by decide
theorem test_rng_pointer : cycleRnd bij 0x05000000800150140000000000000000#128 [(20, 5), (21, 10)] 131 [645] =
    some [131] := by decide

/-! `jmp`, the unassigned opcodes, writes to the PC cells (V26 to V34). -/

theorem test_jmp_ref : pcAfter ref 0x06000000C00080810000000000000000#128 1 [] = some 1 := by decide
theorem test_jmp_bij : pcAfter bij 0x06000000C00080810000000000000000#128 1 [] = some 32897 := by decide
theorem test_nop00_advances : pcAfter ref 0#128 1 [] = some 1 := by decide
theorem test_nop07_advances : cycle ref 0x07000000400000000000000500000000#128 [] [0, 4094, 4095] = some [0, 1, 0] := by decide
theorem test_nop08_advances : pcAfter ref 0x0D000000000000000000000000000001#128 1 [] = some 1 := by decide
theorem test_nop10_advances : pcAfter ref 0x1A000000000000000000000000000000#128 1 [] = some 1 := by decide
theorem test_nop20_advances : pcAfter ref 0x3F000000000000000000000000000000#128 1 [] = some 1 := by decide
theorem test_nop40_advances : pcAfter ref 0x55000000000000000000000000000000#128 1 [] = some 1 := by decide
theorem test_nop80_advances : pcAfter ref 0xFFFFFFFFFFFFFFFFFFFFFFFFFFFFFFFF#128 1 [] = some 1 := by decide
theorem test_write_pc_low : pcAfter ref 0x0100000040000FFE0000000900000000#128 16 [] = some 10 := by decide
/-- V34 with L = 1, since Advance asks nothing of L. -/
theorem test_write_pc_high : pcAfter ref 0x0100000040000FFF0000000100000000#128 1 [] = some 257 := by decide
/-- V35: the operand is the PC itself. -/
theorem test_add_to_pc : pcAfter ref 0x0200000040000FFE40000FFE00000002#128 16 [] = some 3 := by decide

/-! The cycle (V39, V40, V42) and Advance. -/

theorem test_idle_empty : readPc (step State.reset) = some 0 := by decide
theorem test_idle_at_the_end : pcAfter ref 0#128 1 [(4094, 1)] = some 1 := by decide
/-- V42: the Advance step of a PC of 0x7F7F. -/
theorem test_advance_ref : readPc (.next (hostWrite 4095 127 (hostWrite 4094 127 State.reset)).advance) = some 32512 := by decide
/-- V41: the wrap at 65536 under `CODEC_BIJ`. -/
theorem test_advance_wraps : readPc (.next (hostWrite 4095 255 (hostWrite 4094 255 (loaded bij []))).advance) = some 0 := by decide
theorem test_unlawful_codec : why (step (loaded { codec := .table (.replicate 256 0) [] 7, strict := false } [])) =
    some .unlawfulCodec := by decide
/-- The host's way in: from reset, the placed word runs as the first operation. -/
theorem test_with_fetch_word : readPc (step (State.reset.withFetchWord 128 0x06000000C00000030000000000000000)) =
    some 3 := by decide
/-- R91 (2) and (3) for V1, then Advance. -/
theorem test_access_trace : (start bij 0x01000000800150140000004D00000000#128 1 [(20, 5), (21, 10)]).cycleAccesses =
    [.read 4094 0, .read 4095 0, .read 20 (encodeBij 5), .read 21 (encodeBij 10), .write 645 (encodeBij 77),
      .read 4094 0, .read 4095 0, .write 4094 (encodeBij 1), .write 4095 (encodeBij 0)] := by decide

/-! The host's events. -/

theorem test_load : readCells [0, 4094, 4095] (loadProgram [0] (start ref 0 2 [(0, 9), (4094, 5), (4095, 6)])) =
    some [9, 0, 0] := by decide
theorem test_load_refused : why (loadProgram [0x06000000000000030000000000000000#128] State.reset) =
    some (.illFormedWord 0 .operandKind) := by decide
theorem test_grid_reset : readCells [7, 4094] (.next (gridReset (start ref 0 2 [(7, 9), (4094, 1)]))) = some [0, 0] := by decide
/-- R46: two hex characters a byte. -/
theorem test_hex_pairs : hexPairs ['0', 'a', 'F', 'f'] = some [10, 255] := by decide
theorem test_hex_odd : hexPairs ['0', 'a', 'F'] = none := by decide
theorem test_raw_text : rawText ['A', 'b'] = some [65, 98] := by decide
theorem test_bulk : readCells [0, 1, 2] (bulkLoad [10, 200] (loaded ref [])) = some [10, 72, 0] := by decide
theorem test_events : readPc (runEvents [.load [0, 0], .clock true, .clock false, .clock true, .clock true] State.reset) =
    some 2 := by decide

/-! The assembler (R64 to R67, program P1, section 2.7). -/

/-- P1, the source's end-to-end program. -/
theorem test_assemble_program : assembleText false
    ("start:\n  cpy $000,000, 5\n  add $000,001, $000,000, $000,000\n  jmp :start".toList) =
    .ok [0x01000000400000000000000500000000#128, 0x02000000400000404000000040000000#128,
      0x06000000C00000000000000000000000#128] := by decide
theorem test_assemble_pointer : assembleText false "add $000,001, @000,001, 250".toList =
    .ok [0x02000000400000408003F040000000FA#128] := by decide
theorem test_assemble_undefined_label : assembleText false "jmp :end".toList =
    .error (.undefinedLabel ['e', 'n', 'd']) := by decide
theorem test_assemble_unknown_mnemonic : assembleText false "foo".toList = .ok [0] := by decide
theorem test_assemble_unknown_strict : assembleText true "foo".toList = .error .unknownMnemonic := by decide

/-! Witnesses: a concrete state and operands that meet all the hypotheses of a statement, for each clause. A statement not
named here has no hypothesis. -/

/-- The word of `cpy (0, 0), 5`. -/
def cpyWord : OpWord := 0x01000000400000000000000500000000#128

/-- The word of `jmp 3`. -/
def jmpWord : OpWord := 0x06000000C00000030000000000000000#128

/-- The word of `cpy (62, 63), 9`: an ordinary write to the PC's low byte (V33). -/
def pcLoWord : OpWord := 0x0100000040000FFE0000000900000000#128

/-- The word of `cpy (63, 63), 1`: an ordinary write to the PC's high byte (V34). -/
def pcHiWord : OpWord := 0x0100000040000FFF0000000100000000#128

/-- An ill-formed word: `jmp` with a LIT operand. -/
def badWord : OpWord := 0x06000000000000030000000000000000#128

/-- Every form of a destination and of a source is allowed. -/
theorem witness_operand_forms : (Slot.dir 4095).isDest = true ∧ (Slot.ptr 0 4095).isDest = true ∧
    (Slot.lit 255).isSource = true ∧ (Slot.dir 4095).isSource = true ∧ (Slot.ptr 4095 4095).isSource = true := by decide

theorem witness_DecodeOfEncode : (Instr.cpy (.ptr 4095 0) (.lit 255)).kindsOk = true ∧
    (Instr.sub (.dir 4095) (.ptr 0 4095) (.dir 0)).kindsOk = true ∧ (Instr.jmp (.idx 0xFFFF)).kindsOk = true ∧
      (Instr.nop80 0x7F 0).kindsOk = true := by decide

/-- For EncodeOfDecodeIsTheWord and DecoderReadsEveryField. -/
theorem witness_EncodeOfDecode : decode cpyWord = .ok (.cpy (.dir 0) (.lit 5)) := by decide

theorem witness_class_well_formed : assignedOpcode cpyWord ∧ wordOk cpyWord :=
  ⟨by unfold assignedOpcode; decide, by decide,
    .inl ⟨by decide, by unfold laneOk; decide, by unfold laneOk; decide, by decide⟩⟩

theorem witness_class_ill_formed : assignedOpcode badWord ∧ ¬ wordOk badWord := by
  refine ⟨by unfold assignedOpcode; decide, ?_⟩
  rintro ⟨-, ⟨h, -⟩ | ⟨h, -⟩ | ⟨h, -⟩ | ⟨-, h, -⟩⟩ <;> revert h <;> (try unfold laneOk) <;> decide

theorem witness_class_unassigned : ¬ assignedOpcode 0x07000000000000000000000000000000#128 := by
  unfold assignedOpcode; decide

theorem witness_GridStaysCanonical : Memory.wf [(0, 0x004040FF#32), (4095, 0x000000FF#32)] = true := by decide

/-- Two canonical grids that hold the same colours, the second one made by writing a cell and blanking it again. -/
theorem witness_CanonicalGrids : ∃ m n : Memory, m.wf = true ∧ n.wf = true ∧
    ∀ a : Cell, m.colourAt a.toNat = n.colourAt a.toNat :=
  ⟨[(5, 0xFF#32)], (Memory.put [(5, 0xFF#32)] 4095 0x4FF#32).put 4095 0, by decide, by decide, fun _ => rfl⟩

theorem witness_UnassignedOpcodes : State.reset.cfg.strict = false ∧
    ∃ W ∈ [cpyWord, 0xFF000000000000000000000000000000#128], ¬ assignedOpcode W :=
  ⟨rfl, 0xFF000000000000000000000000000000#128, by decide, by unfold assignedOpcode; decide⟩

theorem witness_WellFormedComplete : (Instr.rng (.ptr 1 2)).wf State.reset.cfg.strict = true ∧
    (Instr.nop00 7).wf State.reset.cfg.strict = true := by decide

theorem witness_IllFormedOperations : (Instr.cpy (.lit 5) (.lit 5)).kindsOk = false ∧ (Instr.nop07 0).assigned = false ∧
    (loaded { codec := .ref, strict := true } []).cfg.strict = true := by decide

/-- One operation of each shape gives a next state: a store, a jump, a draw, nothing. -/
theorem witness_ExecuteFrame : (∃ t, exec (.add (.ptr 1 2) (.lit 3) (.dir 4)) State.reset = .next t) ∧
    (∃ t, exec (.jmp (.idx 3)) State.reset = .next t) ∧ (∃ t, exec (.rng (.dir 4094)) State.reset = .next t) ∧
      ∃ t, exec (.nop40 1 2) State.reset = .next t := ⟨⟨_, rfl⟩, ⟨_, rfl⟩, ⟨_, rfl⟩, ⟨_, rfl⟩⟩

/-- The cycle of a one-word program executes the operation of the word. -/
theorem executes_of {s : State} {W : OpWord} {i : Instr} (hp : s.problem = none) (hw : s.prog[s.pc.toNat]? = some W)
    (hd : decode W = .ok i) : Executes s i := ⟨hp, W, hw, hd⟩

theorem executes_cpy (c : Config) (h : c = ref ∨ c = bij) : Executes (loaded c [cpyWord]) (.cpy (.dir 0) (.lit 5)) := by
  rcases h with rfl | rfl <;> exact executes_of (W := cpyWord) (by decide) (by decide) (by decide)

theorem executes_jmp (c : Config) (h : c = ref ∨ c = bij) : Executes (loaded c [jmpWord]) (.jmp (.idx 3)) := by
  rcases h with rfl | rfl <;> exact executes_of (W := jmpWord) (by decide) (by decide) (by decide)

/-- For StepRunsTheDecodedOperation and AdvanceIncrementsTheRereadPc: an operation that sets no `jumped`. -/
theorem witness_step_store : ∃ u t, Executes (loaded ref [cpyWord]) (.cpy (.dir 0) (.lit 5)) ∧
    exec (.cpy (.dir 0) (.lit 5)) (loaded ref [cpyWord]).clearJumped = .next u ∧ step (loaded ref [cpyWord]) = .next t ∧
      u.jumped = false := ⟨_, _, executes_cpy ref (.inl rfl), rfl, rfl, rfl⟩

/-- The same for a jump. -/
theorem witness_step_jump : ∃ u t, Executes (loaded ref [jmpWord]) (.jmp (.idx 3)) ∧
    exec (.jmp (.idx 3)) (loaded ref [jmpWord]).clearJumped = .next u ∧ step (loaded ref [jmpWord]) = .next t ∧
      u.jumped = true := ⟨_, _, executes_jmp ref (.inl rfl), rfl, rfl, rfl⟩

/-- The word of `jmp 0`. -/
def jmpZeroWord : OpWord := 0x06000000C00000000000000000000000#128

/-- A jump to its own index, which the next cycle executes again. -/
theorem witness_jump_to_itself : (loaded ref [jmpZeroWord]).grid.wf = true ∧
    Executes (loaded ref [jmpZeroWord]) (.jmp (.idx 0)) ∧
      ∃ t, step (loaded ref [jmpZeroWord]) = .next t ∧ Executes t (.jmp (.idx 0)) :=
  ⟨by decide, executes_of (W := jmpZeroWord) (by decide) (by decide) (by decide), _, rfl,
    executes_of (W := jmpZeroWord) (by decide) (by decide) (by decide)⟩

/-- A codec that is neither of the named ones is lawful, so the machine of a general codec runs. -/
theorem witness_general_codec : (Codec.table (.replicate 256 0x12345678#32) [] 0).lawful = true := by decide

/-- One assigned and one unassigned operation; and L = 65536, the most the program store holds. -/
theorem witness_CycleIsTotal : (loaded bij [cpyWord, 0]).cfg.codec.lawful = true ∧
    (∀ W ∈ (loaded bij [cpyWord, 0]).prog, ∃ i, decode W = .ok i ∧ i.wf (loaded bij [cpyWord, 0]).cfg.strict = true) ∧
      (List.replicate 65536 cpyWord).length ≤ 65536 ∧
        ∀ W ∈ List.replicate 65536 cpyWord, ∃ i, decode W = .ok i ∧ i.wf true = true := by
  refine ⟨by decide, ?_, List.length_replicate.le, ?_⟩
  · intro W h
    rcases List.mem_cons.mp h with rfl | h
    · exact ⟨.cpy (.dir 0) (.lit 5), by decide, by decide⟩
    · rw [List.mem_singleton.mp h]; exact ⟨.nop00 0, by decide, by decide⟩
  · intro W h
    rw [List.eq_of_mem_replicate h]; exact ⟨.cpy (.dir 0) (.lit 5), by decide, by decide⟩

/-- An ill-formed word at the last index; an unassigned opcode under STRICT. -/
theorem witness_IllFormedProgram : ((loaded ref [0, badWord]).prog[1]? = some badWord ∧
    decode badWord = .error .operandKind) ∧
      (loaded { codec := .ref, strict := true } [0]).prog[0]? = some 0 ∧ ¬ assignedOpcode 0 := by
  unfold assignedOpcode; decide

/-- No program; and the PC at L exactly. -/
theorem witness_IdleCycle : State.reset.problem = none ∧ State.reset.prog.length ≤ State.reset.pc.toNat ∧
    (start ref 0 1 [(4094, 1)]).problem = none ∧ (start ref 0 1 [(4094, 1)]).prog.length = (start ref 0 1 [(4094, 1)]).pc.toNat := by
  decide

/-- V33, both clauses' premises: a write to the low byte. -/
theorem witness_OrdinaryWrite_low : ∃ t, Executes (loaded ref [pcLoWord]) (.cpy (.dir 4094) (.lit 9)) ∧
    isJump (.cpy (.dir 4094) (.lit 9)) = false ∧ step (loaded ref [pcLoWord]) = .next t ∧
      executeWrites (loaded ref [pcLoWord]) (.cpy (.dir 4094) (.lit 9)) = [(pcLo, 9)] :=
  ⟨_, executes_of (W := pcLoWord) (by decide) (by decide) (by decide), rfl, rfl, by decide⟩

/-- V34: a write to the high byte. -/
theorem witness_OrdinaryWrite_high : ∃ t, Executes (loaded bij [pcHiWord]) (.cpy (.dir 4095) (.lit 1)) ∧
    isJump (.cpy (.dir 4095) (.lit 1)) = false ∧ step (loaded bij [pcHiWord]) = .next t ∧
      executeWrites (loaded bij [pcHiWord]) (.cpy (.dir 4095) (.lit 1)) = [(pcHi, 1)] :=
  ⟨_, executes_of (W := pcHiWord) (by decide) (by decide) (by decide), rfl, rfl, by decide⟩

/-- The machine of V30. -/
theorem witness_UnassignedCycle : Executes (loaded ref [0]) (.nop00 0) ∧ (Instr.nop00 0).assigned = false :=
  ⟨executes_of (W := 0) (by decide) (by decide) (by decide), rfl⟩

theorem cpyWord_writes (c : Config) : executeWrites (loaded c [cpyWord]) (.cpy (.dir 0) (.lit 5)) = [(0, 5)] := rfl

/-- Under either codec: an operation that is no jump and writes no PC cell. -/
theorem witness_PcRuns_store (c : Config) (h : c = ref ∨ c = bij) :
    ∃ t, Executes (loaded c [cpyWord]) (.cpy (.dir 0) (.lit 5)) ∧ step (loaded c [cpyWord]) = .next t ∧
      isJump (.cpy (.dir 0) (.lit 5)) = false ∧
        ∀ w ∈ executeWrites (loaded c [cpyWord]) (.cpy (.dir 0) (.lit 5)), w.1 ≠ pcLo ∧ w.1 ≠ pcHi := by
  have hw : ∀ w ∈ [((0 : Cell), (5 : Byte))], w.1 ≠ pcLo ∧ w.1 ≠ pcHi := by
    intro w h
    rw [List.mem_singleton.mp h]; decide
  rw [cpyWord_writes]
  rcases h with rfl | rfl
  · exact ⟨_, executes_cpy ref (.inl rfl), rfl, rfl, hw⟩
  · exact ⟨_, executes_cpy bij (.inr rfl), rfl, rfl, hw⟩

/-- Under either codec: a jump. -/
theorem witness_PcRuns_jump (c : Config) (h : c = ref ∨ c = bij) :
    Executes (loaded c [jmpWord]) (.jmp (.idx 3)) ∧ ∃ t, step (loaded c [jmpWord]) = .next t :=
  ⟨executes_jmp c h, by rcases h with rfl | rfl <;> exact ⟨_, rfl⟩⟩

/-- A trace splits at a read of the Advance step, after a write to the same cell. -/
theorem witness_AccessTrace : (∃ t, step (loaded ref [pcLoWord]) = .next t) ∧
    ∃ before after, (loaded ref [pcLoWord]).cycleAccesses = before ++ Access.read 4094 (encodeRef 9) :: after :=
  ⟨⟨_, rfl⟩, [.read 4094 0, .read 4095 0, .write 4094 (encodeRef 9)],
    [.read 4095 0, .write 4094 (encodeRef 10), .write 4095 (encodeRef 0)], by decide⟩

/-- The cycles of the three shapes: idle, two writes, three writes. -/
theorem witness_CycleWrites : (∃ t, step State.reset = .next t) ∧ (∃ t, step (loaded ref [jmpWord]) = .next t) ∧
    ∃ t, step (loaded ref [cpyWord]) = .next t := ⟨⟨_, rfl⟩, ⟨_, rfl⟩, ⟨_, rfl⟩⟩

/-- A ready machine whose cycle executes an operation. -/
theorem loaded_ready : (loaded ref [cpyWord]).Ready := ⟨by decide, rfl, fun _ => .inl rfl, by decide⟩

theorem witness_EveryCycleKeepsReady : (loaded ref [cpyWord]).Ready ∧ ∃ t, step (loaded ref [cpyWord]) = .next t :=
  ⟨loaded_ready, _, rfl⟩

/-- A run with every kind of event. -/
theorem witness_EveryRunKeepsReady : (loaded ref [cpyWord]).Ready ∧
    ∃ t, runEvents [.clock true, .write 4095 0, .bulk [1, 2], .load [jmpWord, 0], .clock true, .reset, .clock false]
      (loaded ref [cpyWord]) = .next t := ⟨loaded_ready, _, rfl⟩

theorem witness_JumpedIsClear : (loaded ref [jmpWord]).jumped = false ∧ ∃ t, step (loaded ref [jmpWord]) = .next t :=
  ⟨rfl, _, rfl⟩

theorem witness_ProgramStoreChanges : (∃ t, applyEvent (.load [cpyWord]) State.reset = .next t) ∧
    (∃ t, applyEvent (.bulk [1, 2]) State.reset = .next t) ∧ ∃ t, applyEvent (.clock true) (loaded ref [cpyWord]) = .next t :=
  ⟨⟨_, rfl⟩, ⟨_, rfl⟩, ⟨_, rfl⟩⟩

/-- Two machines that differ in a colour and not in a byte: a blank cell, and a cell that byte 0 was written to. -/
theorem witness_CoreSeesOnlyBytes : SameBytes (loaded ref [cpyWord]) (hostWrite 7 0 (loaded ref [cpyWord])) ∧
    (loaded ref [cpyWord]).grid ≠ (hostWrite 7 0 (loaded ref [cpyWord])).grid := by
  refine ⟨⟨⟨rfl, rfl, rfl, rfl, rfl⟩, fun a => ?_⟩, by decide⟩
  rw [hostWrite, memWrite_memRead]
  split
  · decide +revert
  · rfl

/-- A cycle that executes no `rng`. -/
theorem witness_OnlyRng : (∀ dst, ¬ Executes (loaded ref [cpyWord]) (.rng dst)) ∧ ∃ t, step (loaded ref [cpyWord]) = .next t := by
  refine ⟨?_, _, rfl⟩
  rintro dst ⟨-, W, hW, hd⟩
  have e : cpyWord = W := Option.some.inj hW
  rw [← e, show decode cpyWord = .ok (.cpy (.dir 0) (.lit 5)) by decide] at hd
  cases hd

/-- Byte 0 of a blank cell, and the round trip of a byte that was written. -/
theorem witness_Readable : (loaded ref [cpyWord]).Ready := loaded_ready

/-- A program of assigned and unassigned operations; the longest program; the three ways to be refused. -/
theorem witness_ProgramLoad : (∀ W ∈ [jmpWord, 0], ∃ i, decode W = .ok i ∧ i.wf false = true) ∧
    (List.replicate 65536 jmpWord).length ≤ 65536 ∧ (∃ W ∈ [0, badWord], ∃ e, decode W = .error e) ∧
      State.reset.cfg.codec.lawful = true ∧ 65536 < (List.replicate 65537 jmpWord).length ∧
        (loaded { codec := .ref, strict := true } []).cfg.strict = true ∧ ∃ W ∈ [jmpWord, 0], ¬ assignedOpcode W := by
  refine ⟨?_, List.length_replicate.le, ⟨badWord, by decide, .operandKind, by decide⟩, by decide,
    List.length_replicate.ge, rfl, 0, by decide, by unfold assignedOpcode; decide⟩
  intro W h
  rcases List.mem_cons.mp h with rfl | h
  · exact ⟨.jmp (.idx 3), by decide, by decide⟩
  · rw [List.mem_singleton.mp h]; exact ⟨.nop00 0, by decide, by decide⟩

/-- For GridResetBlanksEveryCell and StateAfterReset. -/
theorem witness_GridReset : (start bij 0 1 [(7, 9)]).cfg.codec.lawful = true := by decide

/-- The longest stream, whose last bytes land on the PC cells. -/
theorem witness_BulkLoad : (List.replicate 4096 (7 : Byte)).length ≤ 4096 := List.length_replicate.le

theorem witness_AssembledPrograms : ∃ p, assembleText true "loop:\nrng @011,000\njmp :loop".toList = .ok p :=
  ⟨[0x05000000800080090000000000000000#128, 0x06000000C00000000000000000000000#128], by decide⟩

end Sys2Proof.Tests
end

section
/-! PROOFS. The state family (spec/10_state.md): the program counter in its two cells, the program store, the state after
reset. -/

namespace Sys2Proof.Machine

open Sys2Proof.Claims

/-! The program counter (R18, R19). -/

/-- The PC as a number: cell 4094 is the low byte, cell 4095 the high byte (R18). -/
theorem pc_toNat (s : State) : s.pc.toNat = (s.memRead pcLo).toNat + 256 * (s.memRead pcHi).toNat := by
  have hlo := (s.memRead pcLo).isLt
  rw [State.pc, BitVec.toNat_append, ← Nat.shiftLeft_add_eq_or_of_lt hlo, Nat.shiftLeft_eq]
  omega

theorem setPc_pcWritten (s : State) (x : OpIndex) : PcWritten s (s.setPc x) x := by
  refine ⟨?_, ?_, fun b hlo hhi => ⟨?_, ?_⟩⟩
  · rw [setPc_colourAt, if_neg pcLo_ne_pcHi, if_pos rfl]
  · rw [setPc_colourAt, if_pos rfl]
  · rw [setPc_colourAt, if_neg hhi, if_neg hlo]
  · rw [setPc_memRead, if_neg hhi, if_neg hlo]

theorem setPc_sameButGrid (s : State) (x : OpIndex) : SameButGrid s (s.setPc x) := ⟨rfl, rfl, rfl, rfl, rfl⟩

/-- Settles O14: the byte at the lower cell is the low half of the append, and `pc <- x` is two cell writes. -/
theorem programCounterIsTwoCells : Obligations.ProgramCounterIsTwoCells :=
  fun s x => ⟨pc_toNat s, setPc_pcWritten s x, setPc_pc s x, setPc_sameButGrid s x⟩

/-! The program store (R21). -/

theorem clockEdge_prog_cfg {tick : Bool} {s t : State} (h : clockEdge tick s = .next t) :
    t.prog = s.prog ∧ t.cfg = s.cfg := by
  cases tick with
  | true => exact step_prog_cfg h
  | false => cases h; exact ⟨rfl, rfl⟩

theorem bulkLoad_prog_cfg {bytes : List Byte} {s t : State} (h : bulkLoad bytes s = .next t) :
    t.prog = s.prog ∧ t.cfg = s.cfg := by
  obtain ⟨-, rfl⟩ := bulkLoad_next h
  obtain ⟨-, hprog, hcfg, -, -⟩ := packFrom_fields bytes 0 s
  exact ⟨hprog, hcfg⟩

/-- A program of this machine has at most 65536 words (R11). -/
theorem length_le_of_programProblem {strict : Bool} {p : List OpWord} (h : programProblem strict p = none) :
    p.length ≤ 65536 := by
  unfold programProblem at h
  split at h
  · cases h
  · next hlen => exact Nat.le_of_not_lt hlen

theorem loadProgram_prog_cfg {p : List OpWord} {s t : State} (h : loadProgram p s = .next t) :
    t.prog = p ∧ t.cfg = s.cfg := by
  obtain ⟨-, rfl⟩ := loadProgram_next h
  exact ⟨rfl, rfl⟩

theorem loadProgram_length {p : List OpWord} {s t : State} (h : loadProgram p s = .next t) : p.length ≤ 65536 :=
  length_le_of_programProblem (loadProgram_next h).1

/-- No event changes the arguments of a run (R12). -/
theorem applyEvent_cfg {e : HostEvent} {s t : State} (h : applyEvent e s = .next t) : t.cfg = s.cfg := by
  cases e with
  | clock tick => exact (clockEdge_prog_cfg h).2
  | load p => exact (loadProgram_prog_cfg h).2
  | reset => cases h; rfl
  | write i v => cases h; rfl
  | bulk bytes => exact (bulkLoad_prog_cfg h).2

/-- An event that is no program load leaves the program store (R21). -/
theorem applyEvent_prog {e : HostEvent} {s t : State} (h : applyEvent e s = .next t) (hload : ∀ p, e ≠ .load p) :
    t.prog = s.prog := by
  cases e with
  | clock tick => exact (clockEdge_prog_cfg h).1
  | load p => exact absurd rfl (hload p)
  | reset => cases h; rfl
  | write i v => cases h; rfl
  | bulk bytes => exact (bulkLoad_prog_cfg h).1

/-- Settles O42, by cases on the event: what each leaves of the program store and the arguments. -/
theorem programStoreChangesByLoadAlone : Obligations.ProgramStoreChangesByLoadAlone := by
  intro e s t h
  refine ⟨applyEvent_cfg h, applyEvent_prog h, ?_⟩
  rintro p rfl
  exact ⟨(loadProgram_prog_cfg h).1, loadProgram_length h⟩

/-! The state after reset (R23). -/

/-- The first law of R32: BLANK decodes to 0. -/
theorem decode_blank_of_lawful {k : Codec} (h : k.lawful = true) : k.decode blankColour = 0 := by
  rw [Codec.lawful, Bool.and_eq_true] at h
  exact eq_of_beq h.1

theorem default_codec_lawful : Config.default.codec.lawful = true := by decide

section
variable {s : State} (hgrid : s.grid = [])
include hgrid

theorem colourAt_of_grid_nil (a : Cell) : s.colourAt a = blankColour := by
  rw [State.colourAt, hgrid, Memory.colourAt]

theorem memRead_of_grid_nil (hk : s.cfg.codec.lawful = true) (a : Cell) : s.memRead a = 0 := by
  rw [State.memRead, colourAt_of_grid_nil hgrid, decode_blank_of_lawful hk]

theorem pc_of_grid_nil (hk : s.cfg.codec.lawful = true) : s.pc = 0 := by
  rw [State.pc, memRead_of_grid_nil hgrid hk, memRead_of_grid_nil hgrid hk]
  rfl

end

/-- Settles O46: in both states the grid lists no cell, and BLANK decodes to 0 under a lawful codec. -/
theorem stateAfterReset : Obligations.StateAfterReset := by
  refine ⟨⟨fun a => ⟨colourAt_of_grid_nil rfl a, memRead_of_grid_nil rfl default_codec_lawful a⟩,
    pc_of_grid_nil rfl default_codec_lawful, rfl, rfl⟩, fun s hk => ?_⟩
  have hgrid : (gridReset s).grid = [] := gridReset_grid s
  exact ⟨fun a => ⟨colourAt_of_grid_nil hgrid a, memRead_of_grid_nil hgrid hk a⟩, pc_of_grid_nil hgrid hk,
    gridReset_jumped s, gridReset_prog s⟩

end Sys2Proof.Machine
end

section
/-! PROOFS. The memory family (spec/20_memory.md): the raster order of cells, one cell write, the two named
codecs. -/

namespace Sys2Proof.Machine

open Sys2Proof.Claims

/-! Cells (R25). -/

theorem cellAt_toNat (x y : BitVec 6) : (cellAt x y).toNat = 64 * y.toNat + x.toNat := by
  rw [cellAt, append_toNat]
  omega

theorem cellX_toNat (a : Cell) : (cellX a).toNat = a.toNat % 64 := by
  rw [cellX, field_toNat]
  omega

theorem cellY_toNat (a : Cell) : (cellY a).toNat = a.toNat / 64 := by
  have ha := a.isLt
  rw [cellY, field_toNat]
  omega

theorem cellAt_cellX_cellY (a : Cell) : cellAt (cellX a) (cellY a) = a := by
  apply BitVec.eq_of_toNat_eq
  rw [cellAt_toNat, cellX_toNat, cellY_toNat, Nat.div_add_mod]

/-- Settles O13: a cell is its row above its column, so its index is the row times 64 plus the column. -/
theorem cellIndexIsRasterOrder : Obligations.CellIndexIsRasterOrder :=
  ⟨cellAt_toNat, fun a => ⟨cellAt_cellX_cellY a, cellX_toNat a, cellY_toNat a⟩⟩

/-! One cell write (R28). -/

theorem memWrite_wrote (s : State) (a : Cell) (v : Byte) : Wrote s (s.memWrite a v) a v := by
  refine ⟨?_, ?_, fun b hb => ⟨?_, ?_⟩⟩
  · rw [memWrite_colourAt, if_pos rfl]
  · rw [memWrite_memRead, if_pos rfl]
  · rw [memWrite_colourAt, if_neg hb]
  · rw [memWrite_memRead, if_neg hb]

theorem memWrite_sameButGrid (s : State) (a : Cell) (v : Byte) : SameButGrid s (s.memWrite a v) :=
  ⟨rfl, rfl, rfl, rfl, rfl⟩

/-- Settles O10: what the written cell and every other cell hold and read after the write, and its frame. -/
theorem writeThenReadIsRoundTrip : Obligations.WriteThenReadIsRoundTrip :=
  fun s a v => ⟨memWrite_wrote s a v, memWrite_sameButGrid s a v⟩

/-! CODEC_REF (R33). -/

theorem ref_encode_toNat (b : Byte) : (Codec.ref.encode b).toNat =
    b.toNat / 16 % 8 * 2 ^ 29 + b.toNat / 4 % 4 * 2 ^ 22 + b.toNat % 4 * 2 ^ 14 + 0xFF := by
  simp only [Codec.encode, encodeRef, append_toNat, field_toNat, BitVec.toNat_ofNat]
  omega

theorem ref_decode_toNat (c : Colour) : (Codec.ref.decode c).toNat =
    c.toNat / 2 ^ 29 * 16 + c.toNat / 2 ^ 22 % 4 * 4 + c.toNat / 2 ^ 14 % 4 := by
  have hc := c.isLt
  simp only [Codec.decode, decodeRef, append_toNat, field_toNat, BitVec.toNat_ofNat]
  omega

/-- Each channel of an encoded byte holds its group of the byte, clear of the channels beside it. -/
theorem ref_encode_channels (b : Byte) : (Codec.ref.encode b).toNat / 2 ^ 29 = b.toNat / 16 % 8 ∧
    (Codec.ref.encode b).toNat / 2 ^ 22 % 4 = b.toNat / 4 % 4 ∧
      (Codec.ref.encode b).toNat / 2 ^ 14 % 4 = b.toNat % 4 := by
  rw [ref_encode_toNat]
  refine ⟨?_, ?_, ?_⟩ <;> omega

/-- The groups that `decode` takes back are the low seven bits of the byte. -/
theorem ref_rt_toNat (b : Byte) : (Codec.ref.rt b).toNat = b.toNat % 128 := by
  have groups : b.toNat / 16 % 8 * 16 + b.toNat / 4 % 4 * 4 + b.toNat % 4 = b.toNat % 128 := by omega
  obtain ⟨red, green, blue⟩ := ref_encode_channels b
  rw [Codec.rt, ref_decode_toNat, red, green, blue, groups]

theorem ref_lawful : Codec.ref.lawful = true := by decide

/-- Settles O7: encode and decode in arithmetic, and the round trip from the channels between them. -/
theorem defaultCodecBitByBit : Obligations.DefaultCodecBitByBit :=
  ⟨ref_encode_toNat, ref_decode_toNat, ref_rt_toNat, ref_lawful⟩

/-! CODEC_BIJ (R34). -/

theorem bij_encode_toNat (b : Byte) : (Codec.bij.encode b).toNat =
    b.toNat / 32 * 2 ^ 29 + b.toNat / 4 % 8 * 2 ^ 21 + b.toNat % 4 * 2 ^ 14 + 0xFF := by
  have hb := b.isLt
  simp only [Codec.encode, encodeBij, append_toNat, field_toNat, BitVec.toNat_ofNat]
  omega

theorem bij_decode_toNat (c : Colour) : (Codec.bij.decode c).toNat =
    c.toNat / 2 ^ 29 * 32 + c.toNat / 2 ^ 21 % 8 * 4 + c.toNat / 2 ^ 14 % 4 := by
  have hc := c.isLt
  simp only [Codec.decode, decodeBij, append_toNat, field_toNat]
  omega

theorem bij_encode_channels (b : Byte) : (Codec.bij.encode b).toNat / 2 ^ 29 = b.toNat / 32 ∧
    (Codec.bij.encode b).toNat / 2 ^ 21 % 8 = b.toNat / 4 % 8 ∧
      (Codec.bij.encode b).toNat / 2 ^ 14 % 4 = b.toNat % 4 := by
  rw [bij_encode_toNat]
  refine ⟨?_, ?_, ?_⟩ <;> omega

/-- The groups that `decode` takes back are the whole byte. -/
theorem bij_rt (b : Byte) : Codec.bij.rt b = b := by
  have groups : b.toNat / 32 * 32 + b.toNat / 4 % 8 * 4 + b.toNat % 4 = b.toNat := by omega
  obtain ⟨red, green, blue⟩ := bij_encode_channels b
  apply BitVec.eq_of_toNat_eq
  rw [Codec.rt, bij_decode_toNat, red, green, blue, groups]

theorem bij_lawful : Codec.bij.lawful = true := by decide

/-- Settles O8: encode and decode in arithmetic, and the identity from the channels between them. -/
theorem losslessCodecBitByBit : Obligations.LosslessCodecBitByBit :=
  ⟨bij_encode_toNat, bij_decode_toNat, bij_rt, bij_lawful⟩

end Sys2Proof.Machine
end

section
/-! PROOFS. The encoding family (spec/30_encoding.md): the fields the decoder reads, the classes of words, program images,
the refusal of an ill-formed program. -/

namespace Sys2Proof

open Sys2Proof.Claims

/-! Slots as numbers (R52 to R54). -/

/-- The number of a slot's kind, S[31:30] (R53). -/
def Slot.kind : Slot → Nat
  | .lit _ => 0
  | .dir _ => 1
  | .ptr _ _ => 2
  | .idx _ => 3

/-- A slot's payload, S[23:0], with the bits its kind does not use zero (R54). -/
def Slot.payload : Slot → Nat
  | .lit v => v.toNat
  | .dir a => a.toNat
  | .ptr xc yc => yc.toNat * 2 ^ 12 + xc.toNat
  | .idx t => t.toNat

theorem Slot.payload_lt (x : Slot) : x.payload < 2 ^ 24 := by
  cases x with
  | lit v => have hv := v.isLt; simp only [Slot.payload]; omega
  | dir a => have ha := a.isLt; simp only [Slot.payload]; omega
  | ptr xc yc => have hx := xc.isLt; have hy := yc.isLt; simp only [Slot.payload]; omega
  | idx t => have ht := t.isLt; simp only [Slot.payload]; omega

/-- The lane of a slot is its kind above its payload, the reserved bits between them zero. -/
theorem encodeSlot_toNat (x : Slot) : (encodeSlot x).toNat = x.kind * 2 ^ 30 + x.payload := by
  cases x <;> simp only [encodeSlot, append_toNat, BitVec.toNat_ofNat, Slot.kind, Slot.payload] <;> omega

theorem decodeSlot_eq_ok {S : Lane} {x : Slot} : decodeSlot S = .ok x ↔ S = encodeSlot x :=
  ⟨decodeSlot_ok, fun h => h ▸ decodeSlot_encodeSlot x⟩

theorem slotFields_encodeSlot (x : Slot) : slotFields (encodeSlot x).toNat x := by
  rw [encodeSlot_toNat]
  cases x with
  | lit v => have hv := v.isLt; simp only [slotFields, Slot.kind, Slot.payload]; omega
  | dir a => have ha := a.isLt; simp only [slotFields, Slot.kind, Slot.payload]; omega
  | ptr xc yc => have hx := xc.isLt; have hy := yc.isLt; simp only [slotFields, Slot.kind, Slot.payload]; omega
  | idx t => have ht := t.isLt; simp only [slotFields, Slot.kind, Slot.payload]; omega

/-- A slot that the decoder reads has its fields in the bits of R52 to R54. -/
theorem slotFields_of_decodeSlot {S : Lane} {x : Slot} (h : decodeSlot S = .ok x) : slotFields S.toNat x :=
  decodeSlot_ok h ▸ slotFields_encodeSlot x

/-! The slot check (R58, R59). -/

theorem laneOk_encodeSlot (kinds : List Nat) (x : Slot) : laneOk kinds (encodeSlot x) ↔ x.kind ∈ kinds := by
  have hp := x.payload_lt
  have hkind : (encodeSlot x).toNat / 2 ^ 30 = x.kind := by rw [encodeSlot_toNat]; omega
  have hres : (encodeSlot x).toNat / 2 ^ 24 % 64 = 0 := by rw [encodeSlot_toNat]; omega
  simp only [laneOk, hkind, hres, true_and]
  refine and_iff_left ?_
  rw [encodeSlot_toNat]
  cases x with
  | lit v => have hv := v.isLt; simp only [Slot.kind, Slot.payload]; omega
  | dir a => have ha := a.isLt; simp only [Slot.kind, Slot.payload]; omega
  | ptr xc yc => exact ⟨nofun, nofun, nofun⟩
  | idx t => have ht := t.isLt; simp only [Slot.kind, Slot.payload]; omega

/-- A lane that passes the slot check is the lane of a slot: of each kind, the one of its payload fields. -/
theorem eq_encodeSlot_of_laneOk {kinds : List Nat} {S : Lane} (h : laneOk kinds S) : ∃ x, S = encodeSlot x := by
  obtain ⟨hres, -, hlit, hdir, hidx⟩ := h
  have hS := S.isLt
  have hkind : S.toNat / 2 ^ 30 = 0 ∨ S.toNat / 2 ^ 30 = 1 ∨ S.toNat / 2 ^ 30 = 2 ∨ S.toNat / 2 ^ 30 = 3 := by omega
  suffices ∃ x : Slot, S.toNat = x.kind * 2 ^ 30 + x.payload by
    obtain ⟨x, hx⟩ := this
    exact ⟨x, BitVec.eq_of_toNat_eq (hx.trans (encodeSlot_toNat x).symm)⟩
  obtain hk | hk | hk | hk := hkind
  · have hu := hlit hk
    exact ⟨.lit (S.extractLsb' 0 8), by simp only [Slot.kind, Slot.payload, field_toNat]; omega⟩
  · have hu := hdir hk
    exact ⟨.dir (S.extractLsb' 0 12), by simp only [Slot.kind, Slot.payload, field_toNat]; omega⟩
  · exact ⟨.ptr (S.extractLsb' 0 12) (S.extractLsb' 12 12), by
      simp only [Slot.kind, Slot.payload, field_toNat]; omega⟩
  · have hu := hidx hk
    exact ⟨.idx (S.extractLsb' 0 16), by simp only [Slot.kind, Slot.payload, field_toNat]; omega⟩

/-- The slot check holds of the lanes that decode to a slot of a kind in the list, and of no others. -/
theorem laneOk_iff {kinds : List Nat} {S : Lane} :
    laneOk kinds S ↔ ∃ x, decodeSlot S = .ok x ∧ x.kind ∈ kinds := by
  simp only [decodeSlot_eq_ok]
  constructor
  · intro h
    obtain ⟨x, rfl⟩ := eq_encodeSlot_of_laneOk h
    exact ⟨x, rfl, (laneOk_encodeSlot kinds x).mp h⟩
  · rintro ⟨x, rfl, hk⟩
    exact (laneOk_encodeSlot kinds x).mpr hk

theorem laneOk_dest {S : Lane} : laneOk [1, 2] S ↔ ∃ x, decodeSlot S = .ok x ∧ x.isDest = true := by
  have hkind : ∀ x : Slot, x.kind ∈ [1, 2] ↔ x.isDest = true := by intro x; cases x <;> simp [Slot.kind, Slot.isDest]
  simp only [laneOk_iff, hkind]

theorem laneOk_source {S : Lane} : laneOk [0, 1, 2] S ↔ ∃ x, decodeSlot S = .ok x ∧ x.isSource = true := by
  have hkind : ∀ x : Slot, x.kind ∈ [0, 1, 2] ↔ x.isSource = true := by
    intro x; cases x <;> simp [Slot.kind, Slot.isSource]
  simp only [laneOk_iff, hkind]

theorem laneOk_index {S : Lane} : laneOk [3] S ↔ ∃ x, decodeSlot S = .ok x ∧ x.isIndex = true := by
  have hkind : ∀ x : Slot, x.kind ∈ [3] ↔ x.isIndex = true := by intro x; cases x <;> simp [Slot.kind, Slot.isIndex]
  simp only [laneOk_iff, hkind]

/-! The decoder by opcode (R55). -/

section
variable {W : OpWord} {i : Instr}

theorem decode_cpy (h : opcode W = 0x01#8) : decode W = decodeTwo W .cpy := by simp [decode, h]
theorem decode_add (h : opcode W = 0x02#8) : decode W = decodeThree W .add := by simp [decode, h]
theorem decode_sub (h : opcode W = 0x03#8) : decode W = decodeThree W .sub := by simp [decode, h]
theorem decode_mul (h : opcode W = 0x04#8) : decode W = decodeThree W .mul := by simp [decode, h]
theorem decode_rng (h : opcode W = 0x05#8) : decode W = decodeOne W .rng := by simp [decode, h]
theorem decode_jmp (h : opcode W = 0x06#8) : decode W = decodeOne W .jmp := by simp [decode, h]

theorem assignedOpcode_iff : assignedOpcode W ↔ opcode W = 0x01#8 ∨ opcode W = 0x02#8 ∨ opcode W = 0x03#8 ∨
    opcode W = 0x04#8 ∨ opcode W = 0x05#8 ∨ opcode W = 0x06#8 := by
  simp only [assignedOpcode, ← BitVec.toNat_inj, BitVec.toNat_ofNat]
  omega

theorem decode_unassigned (h : ¬ assignedOpcode W) : decode W = .ok (unassignedRow (opcode W) (belowOpcode W)) := by
  simp only [assignedOpcode_iff, not_or] at h
  obtain ⟨h1, h2, h3, h4, h5, h6⟩ := h
  simp only [decode, h1, h2, h3, h4, h5, h6, if_false]

/-! The fields of an operation (R50, R51, R62). -/

theorem slotFields_lane0 {x : Slot} (h : decodeSlot (lane0 W) = .ok x) : slotFields (W.toNat / 2 ^ 64 % 2 ^ 32) x := by
  simpa only [lane0, field_toNat] using slotFields_of_decodeSlot h

theorem slotFields_lane1 {x : Slot} (h : decodeSlot (lane1 W) = .ok x) : slotFields (W.toNat / 2 ^ 32 % 2 ^ 32) x := by
  simpa only [lane1, field_toNat] using slotFields_of_decodeSlot h

theorem slotFields_lane2 {x : Slot} (h : decodeSlot (lane2 W) = .ok x) : slotFields (W.toNat % 2 ^ 32) x := by
  simpa only [lane2, field_toNat, Nat.pow_zero, Nat.div_one] using slotFields_of_decodeSlot h

theorem opcode_toNat (W : OpWord) : (opcode W).toNat = W.toNat / 2 ^ 120 := by
  have hW := W.isLt
  rw [opcode, field_toNat]
  omega

theorem belowOpcode_toNat (W : OpWord) : (belowOpcode W).toNat = W.toNat % 2 ^ 120 := by
  rw [belowOpcode, field_toNat, Nat.pow_zero, Nat.div_one]

/-- An opcode is its upper bits, which choose the row of an unassigned one, above its lower bits, which the row keeps. -/
theorem opcode_toNat_split (lo len : Nat) (hlen : lo + len = 8) (op : BitVec 8) :
    op.toNat = (op.extractLsb' lo len).toNat * 2 ^ lo + (op.extractLsb' 0 lo).toNat := by
  have hlt : op.toNat / 2 ^ lo < 2 ^ len :=
    Nat.div_lt_of_lt_mul (by rw [← Nat.pow_add, hlen]; exact op.isLt)
  rw [field_toNat, field_toNat, Nat.pow_zero, Nat.div_one, Nat.mod_eq_of_lt hlt, Nat.div_add_mod']

/-- Bit 7 is set in every opcode that no row above the last takes. -/
theorem upper_bit_of_last_row {op : BitVec 8} (hassigned : ¬ (1 ≤ op.toNat ∧ op.toNat ≤ 6)) (h00 : op ≠ 0x00#8)
    (h07 : op ≠ 0x07#8) (h08 : op.extractLsb' 3 5 ≠ 1#5) (h10 : op.extractLsb' 4 4 ≠ 1#4)
    (h20 : op.extractLsb' 5 3 ≠ 1#3) (h40 : op.extractLsb' 6 2 ≠ 1#2) : op.extractLsb' 7 1 = 1#1 := by
  have hlt := op.isLt
  simp only [← BitVec.toNat_inj, ne_eq, field_toNat, BitVec.toNat_ofNat] at *
  omega

theorem fieldsOf_unassignedRow (h : ¬ assignedOpcode W) : FieldsOf W (unassignedRow (opcode W) (belowOpcode W)) := by
  have hrest := belowOpcode_toNat W
  have hop := (opcode_toNat W).symm
  unfold unassignedRow
  split_ifs with h00 h07 h08 h10 h20 h40
  · exact ⟨hop.trans (congrArg _ h00), hrest⟩
  · exact ⟨hop.trans (congrArg _ h07), hrest⟩
  · exact ⟨by rw [hop, opcode_toNat_split 3 5 rfl, h08]; rfl, hrest⟩
  · exact ⟨by rw [hop, opcode_toNat_split 4 4 rfl, h10]; rfl, hrest⟩
  · exact ⟨by rw [hop, opcode_toNat_split 5 3 rfl, h20]; rfl, hrest⟩
  · exact ⟨by rw [hop, opcode_toNat_split 6 2 rfl, h40]; rfl, hrest⟩
  · have h80 := upper_bit_of_last_row h h00 h07 h08 h10 h20 h40
    exact ⟨by rw [hop, opcode_toNat_split 7 1 rfl, h80]; rfl, hrest⟩

theorem unassignedRow_assigned (op : BitVec 8) (rest : BitVec 120) : (unassignedRow op rest).assigned = false := by
  unfold unassignedRow
  split_ifs <;> rfl

theorem unassignedRow_kindsOk (op : BitVec 8) (rest : BitVec 120) : (unassignedRow op rest).kindsOk = true := by
  unfold unassignedRow
  split_ifs <;> rfl

/-! What the decoder reads (R50 to R56). -/

theorem decodeOne_fields {mk : Slot → Instr} (h : decodeOne W mk = .ok i) :
    ∃ x, i = mk x ∧ (mk x).kindsOk = true ∧ slotFields (W.toNat / 2 ^ 64 % 2 ^ 32) x := by
  obtain ⟨-, x, hx, -, -, rfl, hk⟩ := decodeOne_ok.mp h
  exact ⟨x, rfl, hk, slotFields_lane0 hx⟩

theorem decodeTwo_fields {mk : Slot → Slot → Instr} (h : decodeTwo W mk = .ok i) :
    ∃ x y, i = mk x y ∧ (mk x y).kindsOk = true ∧ slotFields (W.toNat / 2 ^ 64 % 2 ^ 32) x ∧
      slotFields (W.toNat / 2 ^ 32 % 2 ^ 32) y := by
  obtain ⟨-, x, y, hx, hy, -, rfl, hk⟩ := decodeTwo_ok.mp h
  exact ⟨x, y, rfl, hk, slotFields_lane0 hx, slotFields_lane1 hy⟩

theorem decodeThree_fields {mk : Slot → Slot → Slot → Instr} (h : decodeThree W mk = .ok i) :
    ∃ x y z, i = mk x y z ∧ (mk x y z).kindsOk = true ∧ slotFields (W.toNat / 2 ^ 64 % 2 ^ 32) x ∧
      slotFields (W.toNat / 2 ^ 32 % 2 ^ 32) y ∧ slotFields (W.toNat % 2 ^ 32) z := by
  obtain ⟨-, x, y, z, hx, hy, hz, rfl, hk⟩ := decodeThree_ok.mp h
  exact ⟨x, y, z, rfl, hk, slotFields_lane0 hx, slotFields_lane1 hy, slotFields_lane2 hz⟩

/-- What holds of every operation that the decoder gives: its kinds are allowed, its opcode is assigned exactly where
the word's is, and its fields are those that the word writes. -/
theorem decode_fields (h : decode W = .ok i) :
    i.kindsOk = true ∧ (i.assigned = true ↔ assignedOpcode W) ∧ FieldsOf W i := by
  have hop := (opcode_toNat W).symm
  by_cases ha : assignedOpcode W
  · obtain h1 | h2 | h3 | h4 | h5 | h6 := assignedOpcode_iff.mp ha
    · obtain ⟨x, y, rfl, hk, hf⟩ := decodeTwo_fields (decode_cpy h1 ▸ h)
      exact ⟨hk, iff_of_true rfl ha, hop.trans (congrArg _ h1), hf⟩
    · obtain ⟨x, y, z, rfl, hk, hf⟩ := decodeThree_fields (decode_add h2 ▸ h)
      exact ⟨hk, iff_of_true rfl ha, hop.trans (congrArg _ h2), hf⟩
    · obtain ⟨x, y, z, rfl, hk, hf⟩ := decodeThree_fields (decode_sub h3 ▸ h)
      exact ⟨hk, iff_of_true rfl ha, hop.trans (congrArg _ h3), hf⟩
    · obtain ⟨x, y, z, rfl, hk, hf⟩ := decodeThree_fields (decode_mul h4 ▸ h)
      exact ⟨hk, iff_of_true rfl ha, hop.trans (congrArg _ h4), hf⟩
    · obtain ⟨x, rfl, hk, hf⟩ := decodeOne_fields (decode_rng h5 ▸ h)
      exact ⟨hk, iff_of_true rfl ha, hop.trans (congrArg _ h5), hf⟩
    · obtain ⟨x, rfl, hk, hf⟩ := decodeOne_fields (decode_jmp h6 ▸ h)
      exact ⟨hk, iff_of_true rfl ha, hop.trans (congrArg _ h6), hf⟩
  · cases (decode_unassigned ha).symm.trans h
    have hun : (unassignedRow (opcode W) (belowOpcode W)).assigned ≠ true :=
      ne_true_of_eq_false (unassignedRow_assigned _ _)
    exact ⟨unassignedRow_kindsOk _ _, iff_of_false hun ha, fieldsOf_unassignedRow ha⟩

/-! The word checks (R57 to R60). -/

theorem headerReserved_eq_zero : headerReserved W = 0 ↔ W.toNat / 2 ^ 96 % 2 ^ 24 = 0 := by
  rw [← BitVec.toNat_inj, headerReserved, field_toNat]
  rfl

/-! Which words each shape accepts. The hypothesis of each lemma is what R56 allows the slots of the operation. -/

theorem decodeOne_isOk {mk : Slot → Instr} {kinds : List Nat}
    (hk : ∀ S, laneOk kinds S ↔ ∃ x, decodeSlot S = .ok x ∧ (mk x).kindsOk = true) :
    (∃ i, decodeOne W mk = .ok i) ↔
      headerReserved W = 0 ∧ laneOk kinds (lane0 W) ∧ lane1 W = 0 ∧ lane2 W = 0 := by
  simp only [decodeOne_ok, hk]
  constructor
  · rintro ⟨_, hh, x, hx, h1, h2, -, hk⟩; exact ⟨hh, ⟨x, hx, hk⟩, h1, h2⟩
  · rintro ⟨hh, ⟨x, hx, hk⟩, h1, h2⟩; exact ⟨_, hh, x, hx, h1, h2, rfl, hk⟩

theorem decodeTwo_isOk {mk : Slot → Slot → Instr} (hk : ∀ x y, (mk x y).kindsOk = (x.isDest && y.isSource)) :
    (∃ i, decodeTwo W mk = .ok i) ↔
      headerReserved W = 0 ∧ laneOk [1, 2] (lane0 W) ∧ laneOk [0, 1, 2] (lane1 W) ∧ lane2 W = 0 := by
  simp only [decodeTwo_ok, laneOk_dest, laneOk_source, hk, Bool.and_eq_true]
  constructor
  · rintro ⟨_, hh, x, y, hx, hy, h2, -, hdst, hsrc⟩; exact ⟨hh, ⟨x, hx, hdst⟩, ⟨y, hy, hsrc⟩, h2⟩
  · rintro ⟨hh, ⟨x, hx, hdst⟩, ⟨y, hy, hsrc⟩, h2⟩; exact ⟨_, hh, x, y, hx, hy, h2, rfl, hdst, hsrc⟩

theorem decodeThree_isOk {mk : Slot → Slot → Slot → Instr}
    (hk : ∀ x y z, (mk x y z).kindsOk = (x.isDest && y.isSource && z.isSource)) :
    (∃ i, decodeThree W mk = .ok i) ↔
      headerReserved W = 0 ∧ laneOk [1, 2] (lane0 W) ∧ laneOk [0, 1, 2] (lane1 W) ∧ laneOk [0, 1, 2] (lane2 W) := by
  simp only [decodeThree_ok, laneOk_dest, laneOk_source, hk, Bool.and_eq_true]
  constructor
  · rintro ⟨_, hh, x, y, z, hx, hy, hz, -, ⟨hdst, ha⟩, hb⟩; exact ⟨hh, ⟨x, hx, hdst⟩, ⟨y, hy, ha⟩, ⟨z, hz, hb⟩⟩
  · rintro ⟨hh, ⟨x, hx, hdst⟩, ⟨y, hy, ha⟩, ⟨z, hz, hb⟩⟩; exact ⟨_, hh, x, y, z, hx, hy, hz, rfl, ⟨hdst, ha⟩, hb⟩

/-- Of the words of an assigned opcode exactly those decode that pass the checks. -/
theorem decode_isOk_iff_wordOk (h : assignedOpcode W) : (∃ i, decode W = .ok i) ↔ wordOk W := by
  rw [wordOk, ← headerReserved_eq_zero]
  obtain h | h | h | h | h | h := assignedOpcode_iff.mp h
  · rw [decode_cpy h, decodeTwo_isOk fun _ _ => rfl]
    simp [h]
  · rw [decode_add h, decodeThree_isOk fun _ _ _ => rfl]
    simp [h]
  · rw [decode_sub h, decodeThree_isOk fun _ _ _ => rfl]
    simp [h]
  · rw [decode_mul h, decodeThree_isOk fun _ _ _ => rfl]
    simp [h]
  · rw [decode_rng h, decodeOne_isOk fun _ => laneOk_dest]
    simp [h]
  · rw [decode_jmp h, decodeOne_isOk fun _ => laneOk_index]
    simp [h]

end

/-- Settles O3, by cases on the opcode: what each slot of the operation reads. -/
theorem decoderReadsEveryField : Obligations.DecoderReadsEveryField := by
  intro W i h
  obtain ⟨-, -, hfields⟩ := decode_fields h
  exact hfields

/-- Settles O4: of the words of an assigned opcode those decode that pass the checks; every other word decodes. -/
theorem everyWordIsInOneClass : Obligations.EveryWordIsInOneClass := by
  refine fun W => ⟨fun ha hok => ?_, fun ha hbad => ?_, fun ha => ?_⟩
  · obtain ⟨i, hi⟩ := (decode_isOk_iff_wordOk ha).mpr hok
    obtain ⟨hk, hassigned, -⟩ := decode_fields hi
    exact ⟨i, hi, hassigned.mpr ha, hk⟩
  · cases hd : decode W with
    | error e => exact ⟨e, rfl⟩
    | ok i => exact absurd ((decode_isOk_iff_wordOk ha).mp ⟨i, hd⟩) hbad
  · exact ⟨_, decode_unassigned ha, unassignedRow_assigned _ _⟩

/-! Program images (R49). -/

theorem wordBytes_getElem? (W : OpWord) {j : Nat} (hj : j < 16) :
    (wordBytes W)[j]? = some (W.extractLsb' (8 * (15 - j)) 8) := by
  simp [wordBytes, hj]

theorem bytesWord_concat (bs : List Byte) (b : Byte) :
    bytesWord (bs ++ [b]) = (bytesWord bs <<< 8) ||| b.setWidth 128 := by
  simp [bytesWord, List.foldl_append]

/-- Where the bytes read so far leave room, one more byte is a digit in base 256. -/
theorem bytesWord_concat_toNat {bs : List Byte} {b : Byte} (h : (bytesWord bs).toNat < 2 ^ 120) :
    (bytesWord (bs ++ [b])).toNat = (bytesWord bs).toNat * 256 + b.toNat := by
  have hb := b.isLt
  rw [bytesWord_concat, BitVec.toNat_or, BitVec.toNat_shiftLeft, BitVec.toNat_setWidth, Nat.shiftLeft_eq,
    Nat.mod_eq_of_lt (by omega), Nat.mod_eq_of_lt (by omega : b.toNat < 2 ^ 128), ← Nat.shiftLeft_eq,
    ← Nat.shiftLeft_add_eq_or_of_lt hb, Nat.shiftLeft_eq]

/-- The first `n` bytes of a word write its top `8 n` bits. -/
theorem bytesWord_take_wordBytes (W : OpWord) {n : Nat} (hn : n ≤ 16) :
    (bytesWord ((wordBytes W).take n)).toNat = W.toNat / 2 ^ (8 * (16 - n)) := by
  have hW := W.isLt
  induction n with
  | zero => rw [List.take_zero, Nat.div_eq_of_lt hW]; rfl
  | succ n ih =>
    have hpow : 2 ^ (8 * (16 - n)) = 2 ^ (8 * (15 - n)) * 256 := by
      rw [show 8 * (16 - n) = 8 * (15 - n) + 8 by omega, Nat.pow_add]
    have hdiv : W.toNat / 2 ^ (8 * (16 - n)) = W.toNat / 2 ^ (8 * (15 - n)) / 256 := by
      rw [hpow, Nat.div_div_eq_div_mul]
    have hle : W.toNat / 2 ^ (8 * (15 - n)) ≤ W.toNat := Nat.div_le_self _ _
    have ih := (ih (by omega)).trans hdiv
    rw [List.take_add_one, wordBytes_getElem? W (by omega), Option.toList_some,
      bytesWord_concat_toNat (by omega), ih, field_toNat, show 16 - (n + 1) = 15 - n by omega]
    omega

theorem bytesWord_wordBytes (W : OpWord) : bytesWord (wordBytes W) = W := by
  apply BitVec.eq_of_toNat_eq
  have h := bytesWord_take_wordBytes W (le_refl 16)
  rwa [List.take_of_length_le (wordBytes_length W).le, Nat.sub_self, Nat.mul_zero, Nat.pow_zero, Nat.div_one] at h

theorem programImage_cons (W : OpWord) (p : List OpWord) : programImage (W :: p) = wordBytes W ++ programImage p :=
  List.flatMap_cons

theorem programImage_length (p : List OpWord) : (programImage p).length = 16 * p.length := by
  induction p with
  | nil => rfl
  | cons W p ih => rw [programImage_cons, List.length_append, wordBytes_length, ih, List.length_cons]; omega

theorem imageWords_programImage (p : List OpWord) : imageWords p.length (programImage p) = p := by
  induction p with
  | nil => rfl
  | cons W p ih =>
    rw [programImage_cons, List.length_cons, imageWords, List.take_left' (wordBytes_length W),
      List.drop_left' (wordBytes_length W), bytesWord_wordBytes, ih]

theorem imageProgram_programImage (p : List OpWord) : imageProgram (programImage p) = some p := by
  rw [imageProgram, programImage_length, Nat.mul_mod_right, if_pos rfl, Nat.mul_div_cancel_left _ (by omega),
    imageWords_programImage]

theorem programImage_getElem? {p : List OpWord} {k j : Nat} {W : OpWord} (hk : p[k]? = some W) (hj : j < 16) :
    (programImage p)[16 * k + j]? = some (W.extractLsb' (8 * (15 - j)) 8) := by
  induction p generalizing k with
  | nil => cases hk
  | cons V p ih =>
    have hV := wordBytes_length V
    rw [programImage_cons]
    cases k with
    | zero =>
      cases hk
      rw [List.getElem?_append_left (by omega), Nat.mul_zero, Nat.zero_add, wordBytes_getElem? W hj]
    | succ k =>
      rw [List.getElem?_append_right (by omega), hV, show 16 * (k + 1) + j - 16 = 16 * k + j by omega]
      exact ih hk

/-- Settles O6, by induction on the words of the program: each is its 16 bytes before those of the rest. -/
theorem programImageRoundTrip : Obligations.ProgramImageRoundTrip := by
  refine fun p => ⟨programImage_length p, imageProgram_programImage p, fun k j W hk hj => ?_⟩
  exact ⟨_, programImage_getElem? hk hj, field_toNat W _ 8⟩

end Sys2Proof

namespace Sys2Proof.Machine

open Sys2Proof.Claims

/-! Ill-formed programs (R61, R62). -/

/-- A program with a word that decodes to no well-formed operation is refused, whatever the PC. -/
theorem step_refused_of_mem {s : State} {W : OpWord} (hW : W ∈ s.prog)
    (hbad : ∀ i, decode W = .ok i → i.wf s.cfg.strict ≠ true) : ∃ r, step s = .refused r := by
  cases hp : s.problem with
  | some r => exact ⟨r, step_of_problem hp⟩
  | none =>
    obtain ⟨-, -, hwords⟩ := problem_eq_none.mp hp
    obtain ⟨i, hi, hwf⟩ := hwords W hW
    exact absurd hwf (hbad i hi)

theorem wf_strict_of_not_assigned {i : Instr} (h : i.assigned = false) : i.wf true = false := by
  simp [Instr.wf, h]

/-- Settles O30: neither an ill-formed word nor, under STRICT, an unassigned opcode decodes to a well-formed operation. -/
theorem illFormedProgramIsRefused : Obligations.IllFormedProgramIsRefused := by
  intro s k W hk hbad
  refine step_refused_of_mem (List.mem_of_getElem? hk) fun i hi hwf => ?_
  obtain ⟨e, he⟩ | ⟨hstrict, ha⟩ := hbad
  · cases he.symm.trans hi
  · cases (decode_unassigned ha).symm.trans hi
    rw [hstrict, wf_strict_of_not_assigned (unassignedRow_assigned _ _)] at hwf
    cases hwf

end Sys2Proof.Machine
end

section
/-! PROOFS. The operand family (spec/40_operands_and_cpy.md): pointer targets, what each kind of slot resolves to, the
operation `cpy`. -/

namespace Sys2Proof.Machine

open Sys2Proof.Claims

/-! Pointer targets (R70). -/

theorem coordinate_toNat (b : Byte) : (coordinate b).toNat = b.toNat % 64 := by
  rw [coordinate, field_toNat]
  omega

/-- Settles O15: the target is the cell of its two coordinates, and a coordinate is its byte modulo 64. -/
theorem pointerTargetIsMasked : Obligations.PointerTargetIsMasked := by
  intro s xc yc
  rw [State.target, cellAt_toNat, coordinate_toNat, coordinate_toNat]

/-! Slots by kind (R68, R69). -/

/-- Settles O16: each clause is the arm of `State.value?` or `State.dest?` for its kind of slot. -/
theorem slotsResolveByKind : Obligations.SlotsResolveByKind :=
  fun _ => ⟨fun _ => rfl, fun _ => rfl, fun _ _ => rfl, fun _ => rfl,
    fun _ => rfl, fun _ _ => rfl, fun _ => rfl, fun _ => rfl⟩

/-! The operation `cpy` (R72). -/

/-- `cpy` with resolved operands makes its one write (R72). -/
theorem exec_cpy_of_some {s : State} {dst src : Slot} {v : Byte} {a : Cell} (hv : s.value? src = some v)
    (ha : s.dest? dst = some a) : exec (.cpy dst src) s = .next (s.memWrite a v) := by
  rw [exec, execCpy, hv, storeByte_of_some ha]

/-- Settles O17: operands of allowed kinds resolve, and `cpy` is then one cell write with its frame. -/
theorem cpyCopiesOneByte : Obligations.CpyCopiesOneByte := by
  intro dst src s hdst hsrc
  obtain ⟨v, hv⟩ := value?_eq_some_of_isSource s hsrc
  obtain ⟨a, ha⟩ := dest?_eq_some_of_isDest s hdst
  exact ⟨opcode_packWord _ _ _ _, v, a, _, hv, ha, exec_cpy_of_some hv ha, memWrite_wrote s a v,
    memWrite_sameButGrid s a v⟩

end Sys2Proof.Machine
end

section
/-! PROOFS. The arithmetic family (spec/41_arithmetic.md): the exact value of each byte function, and `add`, `sub` and
`mul` as one shared store of that function's result. -/

namespace Sys2Proof.Machine

open Sys2Proof.Claims

/-! The byte functions as exact arithmetic reduced modulo 256 (R73). -/

theorem addByte_toNat (x y : Byte) : (addByte x y).toNat = (x.toNat + y.toNat) % 256 :=
  BitVec.toNat_ofNat _ _

/-- The difference may be negative; Lean's `%` on integers gives the non-negative remainder that R75 asks for. -/
theorem subByte_toNat (x y : Byte) : ((subByte x y).toNat : Int) = ((x.toNat : Int) - (y.toNat : Int)) % 256 := by
  rw [subByte, BitVec.toNat_ofInt]
  omega

theorem mulByte_toNat (x y : Byte) : (mulByte x y).toNat = x.toNat * y.toNat % 256 :=
  BitVec.toNat_ofNat _ _

/-! Execute of the three operations (R74 to R76, R87). -/

section

variable (dst a b : Slot) (s : State)

theorem exec_add : exec (.add dst a b) s = arithmetic addByte dst a b s := rfl

theorem exec_sub : exec (.sub dst a b) s = arithmetic subByte dst a b s := rfl

theorem exec_mul : exec (.mul dst a b) s = arithmetic mulByte dst a b s := rfl

variable {dst a b}

/-- With operands of allowed kinds the shared shape completes, whatever the byte function: it is one cell write of the
function's result, with its frame. -/
theorem arithmetic_completes (f : Byte → Byte → Byte) (hdst : dst.isDest = true) (ha : a.isSource = true)
    (hb : b.isSource = true) :
    ∃ x y d t, s.value? a = some x ∧ s.value? b = some y ∧ s.dest? dst = some d ∧
      arithmetic f dst a b s = .next t ∧ Wrote s t d (f x y) ∧ SameButGrid s t := by
  obtain ⟨x, hx⟩ := value?_eq_some_of_isSource s ha
  obtain ⟨y, hy⟩ := value?_eq_some_of_isSource s hb
  obtain ⟨d, hd⟩ := dest?_eq_some_of_isDest s hdst
  exact ⟨x, y, d, _, hx, hy, hd, arithmetic_of_some hx hy hd, memWrite_wrote s d _, memWrite_sameButGrid s d _⟩

end

/-- Settles O18: `add` is the shared store of `addByte`, whose result is the sum modulo 256. -/
theorem addStoresTheSum : Obligations.AddStoresTheSum := by
  intro dst a b s hdst ha hb
  obtain ⟨x, y, d, t, hx, hy, hd, ht, hw, hf⟩ := arithmetic_completes s addByte hdst ha hb
  exact ⟨opcode_packWord _ _ _ _, x, y, addByte x y, d, t, hx, hy, hd, (exec_add dst a b s).trans ht,
    addByte_toNat x y, hw, hf⟩

/-- Settles O19: `sub` is the shared store of `subByte`, whose result is the non-negative remainder of the difference. -/
theorem subStoresTheDifference : Obligations.SubStoresTheDifference := by
  intro dst a b s hdst ha hb
  obtain ⟨x, y, d, t, hx, hy, hd, ht, hw, hf⟩ := arithmetic_completes s subByte hdst ha hb
  exact ⟨opcode_packWord _ _ _ _, x, y, subByte x y, d, t, hx, hy, hd, (exec_sub dst a b s).trans ht,
    subByte_toNat x y, hw, hf⟩

/-- Settles O20: `mul` is the shared store of `mulByte`, whose result is the low byte of the product. -/
theorem mulStoresTheLowByte : Obligations.MulStoresTheLowByte := by
  intro dst a b s hdst ha hb
  obtain ⟨x, y, d, t, hx, hy, hd, ht, hw, hf⟩ := arithmetic_completes s mulByte hdst ha hb
  exact ⟨opcode_packWord _ _ _ _, x, y, mulByte x y, d, t, hx, hy, hd, (exec_mul dst a b s).trans ht,
    mulByte_toNat x y, hw, hf⟩

end Sys2Proof.Machine
end

section
/-! PROOFS. The jump family (spec/43_jmp_and_nop.md): `jmp` and the cycle that executes it, the unassigned opcodes, ordinary
writes to the cells of the program counter. -/

namespace Sys2Proof.Machine

open Sys2Proof.Claims

/-! The unassigned opcodes (R80). -/

/-- The seven rows of unassigned opcodes have one meaning, whatever the bits that a row leaves free (R62). -/
theorem exec_eq_unassigned {i : Instr} (h : i.assigned = false) (s : State) : exec i s = unassigned s := by
  cases i with
  | cpy | add | sub | mul | rng | jmp => cases h
  | nop00 | nop07 | nop08 | nop10 | nop20 | nop40 | nop80 => rfl

theorem exec_of_not_assigned {i : Instr} {s : State} (h : i.assigned = false) (hs : s.cfg.strict = false) :
    exec i s = .next s := by
  simp [exec_eq_unassigned h, unassigned, hs]

theorem programProblem_eq_none {strict : Bool} {p : List OpWord} : programProblem strict p = none ↔
    p.length ≤ 65536 ∧ ∀ W ∈ p, ∃ i, decode W = .ok i ∧ i.wf strict = true := by
  unfold programProblem
  split
  · next hlen => simp [Nat.not_le.mpr hlen]
  · next hlen => simp only [firstIllFormed_eq_none, wordProblem_eq_none, Nat.le_of_not_lt hlen, true_and]

/-- Under STRICT no word of an unassigned opcode decodes to a well-formed operation (R62). -/
theorem not_wf_strict_of_not_assignedOpcode {W : OpWord} (h : ¬ assignedOpcode W) :
    ¬ ∃ i, decode W = .ok i ∧ i.wf true = true := by
  rintro ⟨i, hi, hwf⟩
  cases (decode_unassigned h).symm.trans hi
  simp [wf_strict_of_not_assigned (unassignedRow_assigned _ _)] at hwf

/-- Settles O24: the seven rows share the meaning that changes nothing, and under STRICT a word of an unassigned opcode is
in no program of the machine. -/
theorem unassignedOpcodesDoNothing : Obligations.UnassignedOpcodesDoNothing := by
  refine ⟨fun s hs => ?_, fun p ⟨W, hW, ha⟩ => ?_⟩
  · exact ⟨fun _ => exec_of_not_assigned rfl hs, fun _ => exec_of_not_assigned rfl hs,
      fun _ _ => exec_of_not_assigned rfl hs, fun _ _ => exec_of_not_assigned rfl hs,
      fun _ _ => exec_of_not_assigned rfl hs, fun _ _ => exec_of_not_assigned rfl hs,
      fun _ _ => exec_of_not_assigned rfl hs⟩
  · refine Option.ne_none_iff_exists'.mp fun hp => ?_
    exact not_wf_strict_of_not_assignedOpcode ha ((programProblem_eq_none.mp hp).2 W hW)

/-! The cycle of an operation (R84, R87, R88). -/

theorem step_of_executes {s : State} {i : Instr} (h : Executes s i) : step s = thenAdvance (exec i s.clearJumped) := by
  obtain ⟨hp, W, hW, hd⟩ := h
  exact step_of_decode hp (fetch_eq_some.mpr hW) hd

theorem advance_of_jumped {s : State} (h : s.jumped = true) : s.advance = s.clearJumped := if_pos h

theorem advance_of_not_jumped {s : State} (h : s.jumped = false) : s.advance = s.setPc (s.pc + 1) := by
  simp [State.advance, h]

/-! The operation `jmp` (R79). -/

theorem exec_jmp (x : OpIndex) (s : State) : exec (.jmp (.idx x)) s = .next (s.setPc x).setJumped := rfl

/-- The cycle of a jump is the write of the PC cells: Advance only clears `jumped` (R88). -/
theorem step_jmp {s : State} {x : OpIndex} (h : Executes s (.jmp (.idx x))) : step s = .next (s.setPc x).clearJumped := by
  rw [step_of_executes h, exec_jmp, thenAdvance, advance_of_jumped (setJumped_jumped _)]
  rfl

/-! Writing what a cell holds already: in canonical form (log entry 6) the grid stays the same list. -/

theorem colourAt_of_forall_ne {m : Memory} {a : Nat} (h : ∀ e ∈ m, e.1 ≠ a) : m.colourAt a = blankColour := by
  induction m with
  | nil => rfl
  | cons e rest ih =>
    rw [List.forall_mem_cons] at h
    exact (if_neg h.1).trans (ih h.2)

/-- The canonical form, cell by cell. -/
theorem wf_cons {k : Nat} {d : Colour} {rest : Memory} : Memory.wf ((k, d) :: rest) = true ↔
    k < 4096 ∧ d ≠ blankColour ∧ (∀ e ∈ rest, k < e.1) ∧ rest.wf = true := by
  simp [Memory.wf, and_assoc]

/-- A canonical grid lists no cell that holds BLANK. -/
theorem forall_ne_of_colourAt_blank {m : Memory} {a : Nat} (hm : m.wf = true) (ha : m.colourAt a = blankColour) :
    ∀ e ∈ m, e.1 ≠ a := by
  induction m with
  | nil => simp
  | cons e rest ih =>
    obtain ⟨k, d⟩ := e
    obtain ⟨-, hd, -, hrest⟩ := wf_cons.mp hm
    by_cases hk : k = a
    · exact absurd ((if_pos hk).symm.trans ha) hd
    · exact List.forall_mem_cons.mpr ⟨hk, ih hrest ((if_neg hk).symm.trans ha)⟩

theorem insert_colourAt_self {m : Memory} {a : Nat} (hm : m.wf = true) (ha : m.colourAt a ≠ blankColour) :
    m.insert a (m.colourAt a) = m := by
  induction m with
  | nil => exact absurd rfl ha
  | cons e rest ih =>
    obtain ⟨k, d⟩ := e
    obtain ⟨-, -, hlow, hrest⟩ := wf_cons.mp hm
    by_cases hk : k = a
    · simp [Memory.insert, Memory.colourAt, hk]
    · have hval : Memory.colourAt ((k, d) :: rest) a = Memory.colourAt rest a := if_neg hk
      rw [hval] at ha ⊢
      have hle : ¬ a < k := fun hlt =>
        ha (colourAt_of_forall_ne fun e he => (hlt.trans (hlow e he)).ne')
      rw [Memory.insert, if_neg hle, if_neg (Ne.symm hk), ih hrest ha]

theorem put_colourAt_self {m : Memory} (a : Nat) (hm : m.wf = true) : m.put a (m.colourAt a) = m := by
  unfold Memory.put
  split
  · next ha => simpa using forall_ne_of_colourAt_blank hm ha
  · next ha => exact insert_colourAt_self hm ha

theorem memWrite_of_colourAt {s : State} {a : Cell} {v : Byte} (hs : s.grid.wf = true)
    (ha : s.colourAt a = s.cfg.codec.encode v) : s.memWrite a v = s := by
  rw [State.memWrite, ← ha, State.setColour, State.colourAt, put_colourAt_self _ hs]

/-- `pc <- x` where the PC cells hold the bytes of `x` already. -/
theorem setPc_of_pcWritten {s t : State} {x : OpIndex} (ht : t.grid.wf = true) (hc : t.cfg = s.cfg)
    (h : PcWritten s t x) : t.setPc x = t := by
  obtain ⟨hlo, hhi, -⟩ := h
  rw [← hc] at hlo hhi
  rw [State.setPc, memWrite_of_colourAt ht hlo, memWrite_of_colourAt ht hhi]

/-- Settles O23: the jump and its cycle are the write of the PC cells, which a second jump to the same index repeats. -/
theorem jmpWritesThePcAndSetsJumped : Obligations.JmpWritesThePcAndSetsJumped := by
  intro x s
  have hwritten : PcWritten s (s.setPc x).clearJumped x := setPc_pcWritten s x
  refine ⟨opcode_packWord _ _ _ _,
    ⟨_, exec_jmp x s, setPc_pcWritten s x, setPc_pc s x, rfl, rfl, rfl, rfl, rfl⟩,
    fun hexec => ⟨_, step_jmp hexec, hwritten, setPc_pc s x, rfl, fun hwf hagain => ?_⟩⟩
  have hfix : (s.setPc x).clearJumped.setPc x = (s.setPc x).clearJumped :=
    setPc_of_pcWritten (s := s) (setPc_wf x hwf) rfl hwritten
  rw [step_jmp hagain, hfix]
  rfl

/-! Ordinary writes to the PC cells (R81). -/

theorem memRead_congr {s t : State} (hg : t.grid = s.grid) (hc : t.cfg = s.cfg) (a : Cell) : t.memRead a = s.memRead a := by
  simp only [State.memRead, State.colourAt, hg, hc]

theorem pc_congr {s t : State} (hg : t.grid = s.grid) (hc : t.cfg = s.cfg) : t.pc = s.pc := by
  simp only [State.pc, memRead_congr hg hc]

/-! What Execute writes, and the cells after it, do not depend on `jumped`. -/

theorem executeWrites_clearJumped (s : State) (i : Instr) : executeWrites s.clearJumped i = executeWrites s i := rfl

theorem writeAll_clearJumped (ws : List (Cell × Byte)) (s : State) :
    s.clearJumped.writeAll ws = (s.writeAll ws).clearJumped := by
  induction ws generalizing s with
  | nil => rfl
  | cons w ws ih => exact ih (s.memWrite w.1 w.2)

/-- `jmp` alone sets `jumped` (R20). -/
theorem exec_jumped {i : Instr} {s u : State} (h : exec i s = .next u) (hi : isJump i = false) : u.jumped = s.jumped := by
  obtain ⟨a, v, rfl⟩ | ⟨dst, a, -, -, rfl⟩ | ⟨x, rfl, -⟩ | ⟨-, -, rfl⟩ := exec_next h
  · rfl
  · rfl
  · cases hi
  · rfl

/-- The PC after the cycle of an operation that is no jump: Advance reads it again after the writes of Execute and adds one
(R88). -/
theorem step_pc_of_not_jump {s t : State} {i : Instr} (h : Executes s i) (hi : isJump i = false) (ht : step s = .next t) :
    t.pc = throughCodec s.cfg.codec ((s.writeAll (executeWrites s i)).pc + 1) := by
  obtain ⟨u, hu, rfl⟩ := thenAdvance_next ((step_of_executes h).symm.trans ht)
  have hcfg : u.cfg = s.cfg := (exec_prog_cfg hu).2
  have hgrid : u.grid = (s.writeAll (executeWrites s i)).grid := by
    rw [exec_grid hu, executeWrites_clearJumped, writeAll_clearJumped, clearJumped_grid]
  have hpc := pc_congr hgrid (hcfg.trans (writeAll_cfg _ s).symm)
  rw [advance_of_not_jumped (exec_jumped hu hi), setPc_pc, hcfg, hpc]
  rfl

theorem writeAll_pcLo_pc (s : State) (v : Byte) : (s.writeAll [(pcLo, v)]).pc = s.memRead pcHi ++ s.cfg.codec.rt v := by
  simp [State.writeAll, State.pc, memWrite_memRead, pcHi_ne_pcLo]

theorem writeAll_pcHi_pc (s : State) (v : Byte) : (s.writeAll [(pcHi, v)]).pc = s.cfg.codec.rt v ++ s.memRead pcLo := by
  simp [State.writeAll, State.pc, memWrite_memRead, pcLo_ne_pcHi]

theorem pc_low_byte (s : State) : s.pc.extractLsb' 0 8 = s.memRead pcLo := BitVec.extractLsb'_append_eq_right

theorem pc_high_byte (s : State) : s.pc.extractLsb' 8 8 = s.memRead pcHi := BitVec.extractLsb'_append_eq_left

/-- Settles O33: Advance adds one to the PC that the one write of Execute has changed; the low and the high byte of the PC
are what its two cells read. -/
theorem ordinaryWriteToThePcRedirects : Obligations.OrdinaryWriteToThePcRedirects := by
  intro s t i v hexec hi ht
  have hpc := step_pc_of_not_jump hexec hi ht
  refine ⟨fun hw => ?_, fun hw => ?_, congrArg some (pc_low_byte s).symm, congrArg some (pc_high_byte s).symm⟩
  · rw [hpc, hw, writeAll_pcLo_pc]
  · rw [hpc, hw, writeAll_pcHi_pc]

end Sys2Proof.Machine
end

section
/-! PROOFS. The cycle family (spec/45_cycle.md): the idle cycle, the Advance step. -/

namespace Sys2Proof.Machine

open Sys2Proof.Claims

/-! The idle cycle (R86). -/

/-- A machine stays in a state that one step leaves as it is. -/
theorem run_of_step_fixed (M : Host.Core) {s : M.State} (h : M.step s = .next s) (n : Nat) : M.run n s = .next s := by
  induction n with
  | zero => rfl
  | succ n ih =>
    rw [Host.Core.run, h]
    exact ih

/-- Settles O31: Fetch finds nothing where the PC is not below L, and a state that one cycle leaves as it is stays. -/
theorem idleCycleIsAFixedPoint : Obligations.IdleCycleIsAFixedPoint := by
  intro s hp hlen
  have hstep : step s = .next s := step_of_fetch_none hp (fetch_eq_none.mpr hlen)
  exact ⟨hstep, run_of_step_fixed core hstep⟩

/-! The Advance step (R88). -/

theorem advance_pcWritten {s : State} (h : s.jumped = false) : PcWritten s s.advance (s.pc + 1) := by
  rw [advance_of_not_jumped h]
  exact setPc_pcWritten s (s.pc + 1)

theorem advance_pc {s : State} (h : s.jumped = false) : s.advance.pc = throughCodec s.cfg.codec (s.pc + 1) := by
  rw [advance_of_not_jumped h]
  exact setPc_pc s (s.pc + 1)

theorem advance_grid_of_jumped {s : State} (h : s.jumped = true) : s.advance.grid = s.grid := by
  rw [advance_of_jumped h, clearJumped_grid]

/-- Settles O32: the cycle ends in the Advance step of the state that Execute gave, whose codec is the one before it. -/
theorem advanceIncrementsTheRereadPc : Obligations.AdvanceIncrementsTheRereadPc := by
  intro s u t i hexec hu ht
  have hadvance : t = u.advance := by
    rw [step_of_executes hexec, hu] at ht
    cases ht
    rfl
  have hcfg : u.cfg = s.cfg := (exec_prog_cfg hu).2
  subst hadvance
  refine ⟨advance_jumped u, fun hj => ⟨advance_pcWritten hj, ?_⟩, advance_grid_of_jumped⟩
  rw [advance_pc hj, hcfg]

end Sys2Proof.Machine
end

section
/-! PROOFS. The exceptions family (spec/60_exceptions.md): no operation and no cycle can fail, the grid reset. -/

namespace Sys2Proof.Machine

open Sys2Proof.Claims

/-! Well-formed operations complete (R92). -/

theorem wf_iff {strict : Bool} {i : Instr} :
    i.wf strict = true ↔ i.kindsOk = true ∧ (i.assigned = true ∨ strict = false) := by
  simp [Instr.wf]

/-- `rng` with a resolved destination makes its one write, of the byte on the port (R77). -/
theorem exec_rng_of_some {s : State} {dst : Slot} {a : Cell} (ha : s.dest? dst = some a) :
    exec (.rng dst) s = .next (s.drawn.memWrite a s.rnd) :=
  storeByte_of_some ((drawn_dest? s dst).trans ha)

theorem arithmetic_next_of_kinds (f : Byte → Byte → Byte) {dst a b : Slot} (s : State)
    (h : (dst.isDest && a.isSource && b.isSource) = true) : ∃ t, arithmetic f dst a b s = .next t := by
  simp only [Bool.and_eq_true] at h
  obtain ⟨⟨hdst, ha⟩, hb⟩ := h
  obtain ⟨-, -, -, t, -, -, -, ht, -, -⟩ := arithmetic_completes s f hdst ha hb
  exact ⟨t, ht⟩

/-- Operands of the kinds that R56 allows resolve in every state, and an unassigned opcode is well-formed under STRICT =
false alone, where it changes nothing (R80). -/
theorem exec_next_of_wf {i : Instr} {s : State} (h : i.wf s.cfg.strict = true) : ∃ t, exec i s = .next t := by
  obtain ⟨hk, hstrict⟩ := wf_iff.mp h
  cases i with
  | cpy dst src =>
    obtain ⟨hdst, hsrc⟩ := (Bool.and_eq_true _ _).mp hk
    obtain ⟨v, hv⟩ := value?_eq_some_of_isSource s hsrc
    obtain ⟨a, ha⟩ := dest?_eq_some_of_isDest s hdst
    exact ⟨_, exec_cpy_of_some hv ha⟩
  | add dst a b => exact arithmetic_next_of_kinds addByte s hk
  | sub dst a b => exact arithmetic_next_of_kinds subByte s hk
  | mul dst a b => exact arithmetic_next_of_kinds mulByte s hk
  | rng dst =>
    obtain ⟨a, ha⟩ := dest?_eq_some_of_isDest s hk
    exact ⟨_, exec_rng_of_some ha⟩
  | jmp target =>
    cases target with
    | idx x => exact ⟨_, exec_jmp x s⟩
    | lit | dir | ptr => cases hk
  | nop00 | nop07 | nop08 | nop10 | nop20 | nop40 | nop80 =>
    exact ⟨s, exec_of_not_assigned rfl (hstrict.resolve_left Bool.false_ne_true)⟩

/-- A cycle of an admitted machine idles or executes a well-formed operation (R61, R84). -/
theorem step_next_of_admitted {s : State} (hp : s.problem = none) : ∃ t, step s = .next t := by
  cases hf : s.fetch with
  | none => exact ⟨s, step_of_fetch_none hp hf⟩
  | some W =>
    obtain ⟨i, hd, hwf⟩ := fetch_decodes hp hf
    obtain ⟨u, hu⟩ := exec_next_of_wf (s := s.clearJumped) hwf
    exact ⟨u.advance, by rw [step_of_decode hp hf hd, hu, thenAdvance]⟩

/-- Settles O25: operands of allowed kinds resolve, and an admitted machine fetches well-formed operations only. -/
theorem wellFormedOperationsComplete : Obligations.WellFormedOperationsComplete :=
  ⟨fun _ _ => exec_next_of_wf, fun _ => step_next_of_admitted⟩

/-! Grid reset (R102). -/

/-- Settles O48: the grid lists no cell after the reset, so every cell is BLANK, which a lawful codec decodes to 0. -/
theorem gridResetBlanksEveryCell : Obligations.GridResetBlanksEveryCell := by
  intro s
  have hgrid : (gridReset s).grid = [] := gridReset_grid s
  exact ⟨colourAt_of_grid_nil hgrid, gridReset_jumped s, gridReset_prog s, gridReset_cfg s,
    fun hk => ⟨pc_of_grid_nil hgrid hk, memRead_of_grid_nil hgrid hk⟩⟩

end Sys2Proof.Machine
end

section
/-! PROOFS. Encoder and decoder are inverse to each other (spec/30_encoding.md sections 1 to 4). -/

namespace Sys2Proof

open Sys2Proof.Claims

/-! Decoding the word of an assigned opcode (R50 to R60). -/

theorem decodeOne_packWord {op : BitVec 8} {mk : Slot → Instr} {x : Slot} (hk : (mk x).kindsOk = true) :
    decodeOne (packWord op (encodeSlot x) 0 0) mk = .ok (mk x) := by
  refine decodeOne_ok.mpr ⟨headerReserved_packWord _ _ _ _, x, ?_, lane1_packWord _ _ _ _, lane2_packWord _ _ _ _, rfl, hk⟩
  rw [lane0_packWord, decodeSlot_encodeSlot]

theorem decodeTwo_packWord {op : BitVec 8} {mk : Slot → Slot → Instr} {x y : Slot} (hk : (mk x y).kindsOk = true) :
    decodeTwo (packWord op (encodeSlot x) (encodeSlot y) 0) mk = .ok (mk x y) := by
  refine decodeTwo_ok.mpr ⟨headerReserved_packWord _ _ _ _, x, y, ?_, ?_, lane2_packWord _ _ _ _, rfl, hk⟩
  · rw [lane0_packWord, decodeSlot_encodeSlot]
  · rw [lane1_packWord, decodeSlot_encodeSlot]

theorem decodeThree_packWord {op : BitVec 8} {mk : Slot → Slot → Slot → Instr} {x y z : Slot}
    (hk : (mk x y z).kindsOk = true) :
    decodeThree (packWord op (encodeSlot x) (encodeSlot y) (encodeSlot z)) mk = .ok (mk x y z) := by
  refine decodeThree_ok.mpr ⟨headerReserved_packWord _ _ _ _, x, y, z, ?_, ?_, ?_, rfl, hk⟩
  · rw [lane0_packWord, decodeSlot_encodeSlot]
  · rw [lane1_packWord, decodeSlot_encodeSlot]
  · rw [lane2_packWord, decodeSlot_encodeSlot]

/-! Decoding the word of an unassigned opcode (R62). -/

theorem decode_append {op : BitVec 8} (rest : BitVec 120) (h : ¬ (1 ≤ op.toNat ∧ op.toNat ≤ 6)) :
    decode (op ++ rest) = .ok (unassignedRow op rest) := by
  have ha : ¬ assignedOpcode (op ++ rest) := by rwa [assignedOpcode, opcode_append]
  rw [decode_unassigned ha, opcode_append, belowOpcode_append]

/-! A row's opcodes are its fixed upper bits above the bits it leaves free: they are in no row above it, and the free bits
come back. -/

section
variable (rest : BitVec 120)

theorem unassignedRow_nop08 (op : BitVec 3) : unassignedRow (0b00001#5 ++ op) rest = .nop08 op rest := by
  have hlt := op.isLt
  have hlow : (0b00001#5 ++ op).extractLsb' 0 3 = op := BitVec.extractLsb'_append_eq_right
  simp only [unassignedRow, ← BitVec.toNat_inj, field_toNat, append_toNat, BitVec.toNat_ofNat]
  rw [if_neg (by omega), if_neg (by omega), if_pos (by omega), hlow]

theorem unassignedRow_nop10 (op : BitVec 4) : unassignedRow (0b0001#4 ++ op) rest = .nop10 op rest := by
  have hlt := op.isLt
  have hlow : (0b0001#4 ++ op).extractLsb' 0 4 = op := BitVec.extractLsb'_append_eq_right
  simp only [unassignedRow, ← BitVec.toNat_inj, field_toNat, append_toNat, BitVec.toNat_ofNat]
  rw [if_neg (by omega), if_neg (by omega), if_neg (by omega), if_pos (by omega), hlow]

theorem unassignedRow_nop20 (op : BitVec 5) : unassignedRow (0b001#3 ++ op) rest = .nop20 op rest := by
  have hlt := op.isLt
  have hlow : (0b001#3 ++ op).extractLsb' 0 5 = op := BitVec.extractLsb'_append_eq_right
  simp only [unassignedRow, ← BitVec.toNat_inj, field_toNat, append_toNat, BitVec.toNat_ofNat]
  rw [if_neg (by omega), if_neg (by omega), if_neg (by omega), if_neg (by omega), if_pos (by omega), hlow]

theorem unassignedRow_nop40 (op : BitVec 6) : unassignedRow (0b01#2 ++ op) rest = .nop40 op rest := by
  have hlt := op.isLt
  have hlow : (0b01#2 ++ op).extractLsb' 0 6 = op := BitVec.extractLsb'_append_eq_right
  simp only [unassignedRow, ← BitVec.toNat_inj, field_toNat, append_toNat, BitVec.toNat_ofNat]
  rw [if_neg (by omega), if_neg (by omega), if_neg (by omega), if_neg (by omega), if_neg (by omega),
    if_pos (by omega), hlow]

theorem unassignedRow_nop80 (op : BitVec 7) : unassignedRow (0b1#1 ++ op) rest = .nop80 op rest := by
  have hlt := op.isLt
  have hlow : (0b1#1 ++ op).extractLsb' 0 7 = op := BitVec.extractLsb'_append_eq_right
  simp only [unassignedRow, ← BitVec.toNat_inj, field_toNat, append_toNat, BitVec.toNat_ofNat]
  rw [if_neg (by omega), if_neg (by omega), if_neg (by omega), if_neg (by omega), if_neg (by omega),
    if_neg (by omega), hlow]

end

/-- An opcode with an upper field that no assigned opcode has is unassigned. -/
theorem unassigned_of_upper_bits {lo n : Nat} (hi : BitVec n) (op : BitVec lo) (h : 7 ≤ hi.toNat * 2 ^ lo) :
    ¬ (1 ≤ (hi ++ op).toNat ∧ (hi ++ op).toNat ≤ 6) := by
  rw [append_toNat]
  omega

theorem decode_encode {i : Instr} (h : i.kindsOk = true) : decode (encode i) = .ok i := by
  cases i with
  | cpy dst src => exact (decode_cpy (opcode_packWord _ _ _ _)).trans (decodeTwo_packWord h)
  | add dst a b => exact (decode_add (opcode_packWord _ _ _ _)).trans (decodeThree_packWord h)
  | sub dst a b => exact (decode_sub (opcode_packWord _ _ _ _)).trans (decodeThree_packWord h)
  | mul dst a b => exact (decode_mul (opcode_packWord _ _ _ _)).trans (decodeThree_packWord h)
  | rng dst => exact (decode_rng (opcode_packWord _ _ _ _)).trans (decodeOne_packWord h)
  | jmp target => exact (decode_jmp (opcode_packWord _ _ _ _)).trans (decodeOne_packWord h)
  | nop00 rest => exact decode_append rest (by decide)
  | nop07 rest => exact decode_append rest (by decide)
  | nop08 op rest =>
    exact (decode_append rest (unassigned_of_upper_bits _ op (by decide))).trans
      (congrArg _ (unassignedRow_nop08 rest op))
  | nop10 op rest =>
    exact (decode_append rest (unassigned_of_upper_bits _ op (by decide))).trans
      (congrArg _ (unassignedRow_nop10 rest op))
  | nop20 op rest =>
    exact (decode_append rest (unassigned_of_upper_bits _ op (by decide))).trans
      (congrArg _ (unassignedRow_nop20 rest op))
  | nop40 op rest =>
    exact (decode_append rest (unassigned_of_upper_bits _ op (by decide))).trans
      (congrArg _ (unassignedRow_nop40 rest op))
  | nop80 op rest =>
    exact (decode_append rest (unassigned_of_upper_bits _ op (by decide))).trans
      (congrArg _ (unassignedRow_nop80 rest op))

/-- Settles O1, by cases on the operation: of a packed word each lane decodes to its slot, and an opcode that is not
assigned selects the row it was written from. -/
theorem decodeOfEncodeIsTheOperation : Obligations.DecodeOfEncodeIsTheOperation := fun _ => decode_encode

/-! Encoding the operation of a word (R63). -/

section
variable {W : OpWord} {i : Instr}

theorem packWord_of_opcode {op : BitVec 8} (hop : opcode W = op) (hh : headerReserved W = 0) :
    packWord op (lane0 W) (lane1 W) (lane2 W) = W := hop ▸ packWord_lanes hh

theorem packWord_of_decodeOne {op : BitVec 8} {mk : Slot → Instr} (hop : opcode W = op) (h : decodeOne W mk = .ok i) :
    ∃ x, i = mk x ∧ packWord op (encodeSlot x) 0 0 = W := by
  obtain ⟨hh, x, hx, h1, h2, rfl, -⟩ := decodeOne_ok.mp h
  exact ⟨x, rfl, by simpa only [decodeSlot_ok hx, h1, h2] using packWord_of_opcode hop hh⟩

theorem packWord_of_decodeTwo {op : BitVec 8} {mk : Slot → Slot → Instr} (hop : opcode W = op)
    (h : decodeTwo W mk = .ok i) : ∃ x y, i = mk x y ∧ packWord op (encodeSlot x) (encodeSlot y) 0 = W := by
  obtain ⟨hh, x, y, hx, hy, h2, rfl, -⟩ := decodeTwo_ok.mp h
  exact ⟨x, y, rfl, by simpa only [decodeSlot_ok hx, decodeSlot_ok hy, h2] using packWord_of_opcode hop hh⟩

theorem packWord_of_decodeThree {op : BitVec 8} {mk : Slot → Slot → Slot → Instr} (hop : opcode W = op)
    (h : decodeThree W mk = .ok i) :
    ∃ x y z, i = mk x y z ∧ packWord op (encodeSlot x) (encodeSlot y) (encodeSlot z) = W := by
  obtain ⟨hh, x, y, z, hx, hy, hz, rfl, -⟩ := decodeThree_ok.mp h
  exact ⟨x, y, z, rfl, by
    simpa only [decodeSlot_ok hx, decodeSlot_ok hy, decodeSlot_ok hz] using packWord_of_opcode hop hh⟩

/-- The fields of an operation of an unassigned opcode are all the bits of its word. -/
theorem encode_of_fieldsOf (ha : i.assigned = false) (h : FieldsOf W i) : encode i = W := by
  apply BitVec.eq_of_toNat_eq
  cases i with
  | cpy | add | sub | mul | rng | jmp => cases ha
  | nop00 | nop07 | nop08 | nop10 | nop20 | nop40 | nop80 =>
    obtain ⟨hop, hrest⟩ := h
    simp only [encode, append_toNat, BitVec.toNat_ofNat]
    omega

theorem encode_of_decode (h : decode W = .ok i) : encode i = W := by
  by_cases ha : assignedOpcode W
  · obtain h1 | h2 | h3 | h4 | h5 | h6 := assignedOpcode_iff.mp ha
    · obtain ⟨x, y, rfl, hW⟩ := packWord_of_decodeTwo h1 (decode_cpy h1 ▸ h); exact hW
    · obtain ⟨x, y, z, rfl, hW⟩ := packWord_of_decodeThree h2 (decode_add h2 ▸ h); exact hW
    · obtain ⟨x, y, z, rfl, hW⟩ := packWord_of_decodeThree h3 (decode_sub h3 ▸ h); exact hW
    · obtain ⟨x, y, z, rfl, hW⟩ := packWord_of_decodeThree h4 (decode_mul h4 ▸ h); exact hW
    · obtain ⟨x, rfl, hW⟩ := packWord_of_decodeOne h5 (decode_rng h5 ▸ h); exact hW
    · obtain ⟨x, rfl, hW⟩ := packWord_of_decodeOne h6 (decode_jmp h6 ▸ h); exact hW
  · obtain ⟨-, hassigned, hfields⟩ := decode_fields h
    exact encode_of_fieldsOf (Bool.eq_false_iff.mpr fun hi => ha (hassigned.mp hi)) hfields

end

/-- Settles O2, by cases on the opcode: an assigned one packs the lanes it was read from, and the fields of an unassigned
one are the whole word. -/
theorem encodeOfDecodeIsTheWord : Obligations.EncodeOfDecodeIsTheWord := by
  intro W i h
  obtain ⟨hk, -, -⟩ := decode_fields h
  exact ⟨encode_of_decode h, hk⟩

/-! The spec's own words. -/

theorem decode_of_encode_eq {W : OpWord} {i : Instr} (hW : encode i = W) (hk : i.kindsOk = true) : decode W = .ok i :=
  hW ▸ decode_encode hk

/-- Settles O5: each word is the encoding of the operation beside it. -/
theorem sampleWordsDecode : Obligations.SampleWordsDecode :=
  ⟨decode_of_encode_eq (by decide) rfl, decode_of_encode_eq (by decide) rfl, decode_of_encode_eq (by decide) rfl,
    decode_of_encode_eq (by decide) rfl, decode_of_encode_eq (by decide) rfl, decode_of_encode_eq (by decide) rfl,
    decode_of_encode_eq (by decide) rfl⟩

end Sys2Proof
end

section
/-! PROOFS. The codec argument and the canonical form of the grid (spec/20_memory.md sections 2 and 3; log entries 2
and 6). -/

namespace Sys2Proof.Machine

open Sys2Proof.Claims

/-! Every pair of functions is a codec (R30). -/

theorem tableByte_map {other : Byte} {dec : Colour → Byte} {c : Colour} {cs : List Colour} (hc : c ∈ cs) :
    tableByte other c (cs.map fun d => (d, dec d)) = dec c := by
  induction cs with
  | nil => simp at hc
  | cons d rest ih =>
    rw [List.map_cons, tableByte]
    by_cases hd : d = c
    · rw [if_pos hd, hd]
    · rw [if_neg hd, ih ((List.mem_cons.mp hc).resolve_left (Ne.symm hd))]

theorem exists_list_of_all_colours : ∃ cs : List Colour, ∀ c, c ∈ cs := by
  have hfin : Finite Colour := Finite.of_injective BitVec.toFin fun _ _ => BitVec.eq_of_toFin_eq
  exact ⟨(Set.toFinite (Set.univ : Set Colour)).toFinset.toList, by simp⟩

/-- Settles O9: a table that lists the colour of every byte, and for every colour its byte. -/
theorem codecArgumentIsAnyPair : Obligations.CodecArgumentIsAnyPair := by
  intro enc dec
  obtain ⟨cs, hcs⟩ := exists_list_of_all_colours
  refine ⟨.table (Vector.ofFn fun k => enc (BitVec.ofFin k)) (cs.map fun d => (d, dec d)) 0, fun b => ?_,
    fun c => tableByte_map (hcs c)⟩
  exact Vector.getElem_ofFn b.isLt

/-! The canonical form (log entry 6). -/

/-- Settles O11: a colour written to a cell is one `put` at an index below 4096. -/
theorem gridStaysCanonical : Obligations.GridStaysCanonical := fun _ a c h => put_wf c a.isLt h

theorem lt_of_mem_of_wf {m : Memory} (hm : m.wf = true) : ∀ e ∈ m, e.1 < 4096 := by
  induction m with
  | nil => simp
  | cons e rest ih =>
    obtain ⟨k, d⟩ := e
    obtain ⟨hk, -, -, hrest⟩ := wf_cons.mp hm
    exact List.forall_mem_cons.mpr ⟨hk, ih hrest⟩

/-- The cells tell what a canonical grid holds at every number. -/
theorem colourAt_eq_of_cells {m n : Memory} (hm : m.wf = true) (hn : n.wf = true)
    (h : ∀ a : Cell, m.colourAt a.toNat = n.colourAt a.toNat) (k : Nat) : m.colourAt k = n.colourAt k := by
  by_cases hk : k < 4096
  · simpa [Nat.mod_eq_of_lt hk] using h (BitVec.ofNat 12 k)
  · have blank : ∀ {g : Memory}, g.wf = true → g.colourAt k = blankColour := fun hg =>
      colourAt_of_forall_ne fun e he => (Nat.lt_of_lt_of_le (lt_of_mem_of_wf hg e he) (Nat.le_of_not_lt hk)).ne
    rw [blank hm, blank hn]

/-- Below its first entry a canonical grid holds BLANK. -/
theorem colourAt_of_lt_head {k j : Nat} {d : Colour} {rest : Memory} (h : Memory.wf ((k, d) :: rest) = true)
    (hj : j < k) : Memory.colourAt ((k, d) :: rest) j = blankColour := by
  obtain ⟨-, -, hlow, -⟩ := wf_cons.mp h
  exact colourAt_of_forall_ne (List.forall_mem_cons.mpr ⟨hj.ne', fun e he => (hj.trans (hlow e he)).ne'⟩)

theorem colourAt_head (k : Nat) (d : Colour) (rest : Memory) : Memory.colourAt ((k, d) :: rest) k = d := if_pos rfl

/-- No canonical grid starts before another that holds the same colours. -/
theorem head_le_of_colourAt_eq {k j : Nat} {c d : Colour} {m n : Memory} (hm : Memory.wf ((k, c) :: m) = true)
    (hn : Memory.wf ((j, d) :: n) = true)
    (h : ∀ a, Memory.colourAt ((k, c) :: m) a = Memory.colourAt ((j, d) :: n) a) : j ≤ k := by
  obtain ⟨-, hc, -, -⟩ := wf_cons.mp hm
  refine Nat.le_of_not_lt fun hlt => hc ?_
  rw [← colourAt_head k c m, h k, colourAt_of_lt_head hn hlt]

/-- Past its first entry a canonical grid holds what the entries after it say. -/
theorem colourAt_tail {k : Nat} {c : Colour} {m : Memory} (hm : Memory.wf ((k, c) :: m) = true) (a : Nat) :
    m.colourAt a = if a = k then blankColour else Memory.colourAt ((k, c) :: m) a := by
  obtain ⟨-, -, hlow, -⟩ := wf_cons.mp hm
  split
  · next ha => exact colourAt_of_forall_ne fun e he => ha ▸ (hlow e he).ne'
  · next ha => exact (if_neg (Ne.symm ha)).symm

theorem eq_of_colourAt_eq {m n : Memory} (hm : m.wf = true) (hn : n.wf = true)
    (h : ∀ a, m.colourAt a = n.colourAt a) : m = n := by
  induction m generalizing n with
  | nil =>
    cases n with
    | nil => rfl
    | cons e n =>
      obtain ⟨-, hd, -, -⟩ := wf_cons.mp hn
      exact absurd ((h e.1).trans (colourAt_head e.1 e.2 n)).symm hd
  | cons e m ih =>
    obtain ⟨k, c⟩ := e
    cases n with
    | nil =>
      obtain ⟨-, hc, -, -⟩ := wf_cons.mp hm
      exact absurd ((colourAt_head k c m).symm.trans (h k)) hc
    | cons e n =>
      obtain ⟨j, d⟩ := e
      obtain rfl : k = j := Nat.le_antisymm (head_le_of_colourAt_eq hn hm fun a => (h a).symm)
        (head_le_of_colourAt_eq hm hn h)
      obtain rfl : c = d := by rw [← colourAt_head k c m, h k, colourAt_head]
      obtain ⟨-, -, -, hm'⟩ := wf_cons.mp hm
      obtain ⟨-, -, -, hn'⟩ := wf_cons.mp hn
      rw [ih hm' hn' fun a => by rw [colourAt_tail hm, colourAt_tail hn, h a]]

/-- Settles O12, by induction on the entries: the first entry is the lowest cell that is not BLANK. -/
theorem canonicalGridsAreEqualData : Obligations.CanonicalGridsAreEqualData :=
  fun _ _ hm hn h => eq_of_colourAt_eq hm hn (colourAt_eq_of_cells hm hn h)

end Sys2Proof.Machine
end

section
/-! PROOFS. Execute (spec/42_rng.md, spec/45_cycle.md section 2): the operation `rng`, the refusal of ill-formed
operations, the frame of every operation. -/

namespace Sys2Proof.Machine

open Sys2Proof.Claims

/-! The operation `rng` (R77, R78). -/

/-- Settles O21: `rng` is one cell write of the byte on the port, in the state that has drawn it. -/
theorem rngStoresTheRandomByte : Obligations.RngStoresTheRandomByte := by
  intro dst s hdst
  obtain ⟨a, ha⟩ := dest?_eq_some_of_isDest s hdst
  exact ⟨opcode_packWord _ _ _ _, a, _, ha, exec_rng_of_some ha, memWrite_wrote s.drawn a s.rnd, rfl, rfl, rfl, rfl, rfl⟩

/-- Settles O22: `rng` stores the byte at the head of the host's queue. -/
theorem everyByteCanBeDrawn : Obligations.EveryByteCanBeDrawn := by
  intro dst s b rest hdst
  obtain ⟨a, ha⟩ := dest?_eq_some_of_isDest { s with rndIn := b :: rest } hdst
  obtain ⟨-, hread, -⟩ := memWrite_wrote (State.drawn { s with rndIn := b :: rest }) a b
  exact ⟨a, _, ha, exec_rng_of_some ha, hread, rfl⟩

/-! Ill-formed operations (R59, R61, R62). -/

theorem value?_eq_none_of_not_isSource (s : State) {x : Slot} (h : x.isSource = false) : s.value? x = none :=
  Option.isNone_iff_eq_none.mp (by rw [← Option.not_isSome, value?_isSome, h]; rfl)

theorem dest?_eq_none_of_not_isDest (s : State) {x : Slot} (h : x.isDest = false) : s.dest? x = none :=
  Option.isNone_iff_eq_none.mp (by rw [← Option.not_isSome, dest?_isSome, h]; rfl)

theorem indexOf?_eq_none_of_not_isIndex {x : Slot} (h : x.isIndex = false) : indexOf? x = none :=
  Option.isNone_iff_eq_none.mp (by rw [← Option.not_isSome, indexOf?_isSome, h]; rfl)

/-- A store with an unresolved value or destination is refused. -/
theorem storeByte_refused {s : State} {dst : Slot} {v : Option Byte} (h : dst.isDest = false ∨ v = none) :
    storeByte dst v s = .refused .illFormedOperand := by
  obtain hdst | rfl := h
  · cases v with
    | none => rfl
    | some v => simp only [storeByte, dest?_eq_none_of_not_isDest s hdst]
  · rfl

theorem arithmetic_refused (f : Byte → Byte → Byte) {dst a b : Slot} (s : State)
    (h : (dst.isDest && a.isSource && b.isSource) = false) :
    arithmetic f dst a b s = .refused .illFormedOperand := by
  simp only [Bool.and_eq_false_iff] at h
  obtain (hdst | ha) | hb := h
  · exact storeByte_refused (.inl hdst)
  · exact storeByte_refused (.inr (by rw [value?_eq_none_of_not_isSource s ha, Option.bind_none]))
  · exact storeByte_refused (.inr (by rw [value?_eq_none_of_not_isSource s hb]; simp))

theorem exec_refused_of_not_kindsOk {i : Instr} (s : State) (h : i.kindsOk = false) :
    exec i s = .refused .illFormedOperand := by
  cases i with
  | cpy dst src =>
    exact storeByte_refused ((Bool.and_eq_false_iff.mp h).imp_right (value?_eq_none_of_not_isSource s))
  | add dst a b => exact arithmetic_refused addByte s h
  | sub dst a b => exact arithmetic_refused subByte s h
  | mul dst a b => exact arithmetic_refused mulByte s h
  | rng dst => exact storeByte_refused (.inl h)
  | jmp target => rw [exec, execJmp, indexOf?_eq_none_of_not_isIndex h]
  | nop00 | nop07 | nop08 | nop10 | nop20 | nop40 | nop80 => cases h

/-- Settles O26: a slot of a kind that R56 does not allow resolves to nothing, and the seven unassigned rows share the
meaning that STRICT refuses. -/
theorem illFormedOperationsAreRefused : Obligations.IllFormedOperationsAreRefused := by
  refine ⟨fun i s => exec_refused_of_not_kindsOk s, fun i s ha hs => ?_⟩
  rw [exec_eq_unassigned ha, unassigned, if_pos hs]

/-! The frame of Execute. -/

theorem colourAt_congr {s t : State} (hg : t.grid = s.grid) (a : Cell) : t.colourAt a = s.colourAt a := by
  rw [State.colourAt, hg, State.colourAt]

theorem exec_colourAt_frame {i : Instr} {s t : State} {b : Cell} (h : exec i s = .next t)
    (hb : b ∉ (executeWrites s i).map (·.1)) : t.colourAt b = s.colourAt b := by
  rw [colourAt_congr (exec_grid h)]
  exact writeAll_colourAt fun w hw hwb => hb (List.mem_map.mpr ⟨w, hw, hwb⟩)

theorem memRead_eq_of_colourAt {s t : State} {b : Cell} (hc : t.cfg = s.cfg) (h : t.colourAt b = s.colourAt b) :
    t.memRead b = s.memRead b := by
  rw [State.memRead, h, hc, State.memRead]

/-- `rng` alone draws a byte (R78). -/
theorem exec_random {i : Instr} {s t : State} (h : exec i s = .next t) (hi : ∀ dst, i ≠ .rng dst) :
    t.rndIn = s.rndIn ∧ t.draws = s.draws := by
  obtain ⟨a, v, rfl⟩ | ⟨dst, a, rfl, -, -⟩ | ⟨x, -, rfl⟩ | ⟨-, -, rfl⟩ := exec_next h
  · exact ⟨rfl, rfl⟩
  · exact absurd rfl (hi dst)
  · exact ⟨rfl, rfl⟩
  · exact ⟨rfl, rfl⟩

/-- Settles O27: the grid after Execute is the one that the writes of the trace make, and the cases of Execute say the
rest. -/
theorem executeFrame : Obligations.ExecuteFrame := by
  intro i s t h
  obtain ⟨hprog, hcfg⟩ := exec_prog_cfg h
  refine ⟨fun b hb => ?_, hprog, hcfg, exec_jumped h, exec_random h⟩
  have hcolour := exec_colourAt_frame h hb
  exact ⟨hcolour, memRead_eq_of_colourAt hcfg hcolour⟩

end Sys2Proof.Machine
end

section
/-! PROOFS. The cycle (spec/45_cycle.md, spec/43_jmp_and_nop.md section 2): it runs the decoded operation, it is total, what
it is for an unassigned opcode. -/

namespace Sys2Proof.Machine

open Sys2Proof.Claims

/-! The decoded operation (R84, R87). -/

/-- An admitted machine executes well-formed operations only (R61). -/
theorem wf_of_executes {s : State} {i : Instr} (h : Executes s i) : i.wf s.cfg.strict = true := by
  obtain ⟨hp, W, hW, hd⟩ := h
  obtain ⟨j, hj, hwf⟩ := fetch_decodes hp (fetch_eq_some.mpr hW)
  cases hd.symm.trans hj
  exact hwf

theorem exec_next_of_executes {s : State} {i : Instr} (h : Executes s i) : ∃ t, exec i s.clearJumped = .next t :=
  exec_next_of_wf (s := s.clearJumped) (wf_of_executes h)

theorem step_of_exec {s t : State} {i : Instr} (h : Executes s i) (ht : exec i s.clearJumped = .next t) :
    step s = .next t.advance := by
  rw [step_of_executes h, ht, thenAdvance]

/-- Settles O28: the operation is well-formed and so completes, and the cycle ends in Advance. -/
theorem stepRunsTheDecodedOperation : Obligations.StepRunsTheDecodedOperation := by
  intro s i h
  obtain ⟨t, ht⟩ := exec_next_of_executes h
  exact ⟨t, ht, step_of_exec h ht⟩

/-- Settles O29: the hypotheses are what admits the machine. -/
theorem cycleIsTotal : Obligations.CycleIsTotal :=
  fun _ hk hlen hwords => step_next_of_admitted (problem_eq_none.mpr ⟨hk, hlen, hwords⟩)

/-! The cycle of an unassigned opcode (R80). -/

theorem step_of_not_assigned {s : State} {i : Instr} (h : Executes s i) (ha : i.assigned = false) :
    step s = .next s.clearJumped.advance := by
  obtain ⟨-, hstrict⟩ := wf_iff.mp (wf_of_executes h)
  have hs : s.cfg.strict = false := hstrict.resolve_left (by rw [ha]; exact Bool.false_ne_true)
  exact step_of_exec h (exec_of_not_assigned ha hs)

/-- Settles O34: Execute changes nothing, so the cycle is the Advance step. -/
theorem unassignedCycleOnlyAdvances : Obligations.UnassignedCycleOnlyAdvances := by
  intro s i h ha
  have hj := clearJumped_jumped s
  exact ⟨_, step_of_not_assigned h ha, advance_pcWritten hj, advance_pc hj, advance_jumped _, advance_prog _,
    advance_cfg _, advance_rndIn _, advance_draws _⟩

end Sys2Proof.Machine
end

section
/-! PROOFS. The program counter under the two named codecs (spec/70_reset_and_hazards.md section 2). -/

namespace Sys2Proof.Machine

open Sys2Proof.Claims

/-! Bytes and 16-bit values under CODEC_REF (R33, R116). -/

theorem ref_decode_lt (c : Colour) : (Codec.ref.decode c).toNat < 128 := by
  have hc := c.isLt
  rw [ref_decode_toNat]
  omega

theorem and_bit7_of_lt {b : Byte} (h : b.toNat < 128) : b &&& 0x80#8 = 0 := by
  revert b
  decide

theorem ref_rt_eq_and (b : Byte) : Codec.ref.rt b = b &&& 0x7F#8 := by
  apply BitVec.eq_of_toNat_eq
  rw [ref_rt_toNat, BitVec.toNat_and]
  exact (Nat.and_two_pow_sub_one_eq_mod b.toNat 7).symm

theorem high_append_low (x : OpIndex) : x.extractLsb' 8 8 ++ x.extractLsb' 0 8 = x := by
  have hx := x.isLt
  apply BitVec.eq_of_toNat_eq
  rw [append_toNat, field_toNat, field_toNat]
  omega

theorem throughCodec_ref (x : OpIndex) : throughCodec .ref x = x &&& 0x7F7F#16 :=
  calc throughCodec .ref x
      = (x.extractLsb' 8 8 &&& 0x7F#8) ++ (x.extractLsb' 0 8 &&& 0x7F#8) := by
        rw [throughCodec, ref_rt_eq_and, ref_rt_eq_and]
    _ = (x.extractLsb' 8 8 ++ x.extractLsb' 0 8) &&& (0x7F#8 ++ 0x7F#8) := BitVec.and_append.symm
    _ = x &&& 0x7F7F#16 := by rw [high_append_low]; rfl

theorem throughCodec_bij (x : OpIndex) : throughCodec .bij x = x := by
  rw [throughCodec, bij_rt, bij_rt, high_append_low]

/-! The PC of a cycle. -/

section
variable {s t : State} {i : Instr}

theorem memRead_lt_of_ref (hk : s.cfg.codec = .ref) (a : Cell) : (s.memRead a).toNat < 128 := by
  rw [State.memRead, hk]
  exact ref_decode_lt _

theorem pc_and_of_ref (hk : s.cfg.codec = .ref) : s.pc &&& 0x8080#16 = 0 :=
  calc s.pc &&& 0x8080#16
      = (s.memRead pcHi &&& 0x80#8) ++ (s.memRead pcLo &&& 0x80#8) :=
        BitVec.and_append (x₂ := 0x80#8) (y₂ := 0x80#8)
    _ = 0 := by rw [and_bit7_of_lt (memRead_lt_of_ref hk _), and_bit7_of_lt (memRead_lt_of_ref hk _)]; rfl

/-- Writes to other cells leave the PC. -/
theorem writeAll_pc {ws : List (Cell × Byte)} (h : ∀ w ∈ ws, w.1 ≠ pcLo ∧ w.1 ≠ pcHi) : (s.writeAll ws).pc = s.pc := by
  have hlo := writeAll_colourAt (s := s) fun w hw => (h w hw).1
  have hhi := writeAll_colourAt (s := s) fun w hw => (h w hw).2
  have hc := writeAll_cfg ws s
  rw [State.pc, memRead_eq_of_colourAt hc hlo, memRead_eq_of_colourAt hc hhi, State.pc]

/-- Where neither Execute jumps nor writes a PC cell, the cycle is PC ← PC + 1 through the codec. -/
theorem step_pc_of_no_pc_write (h : Executes s i) (hi : isJump i = false)
    (hw : ∀ w ∈ executeWrites s i, w.1 ≠ pcLo ∧ w.1 ≠ pcHi) (ht : step s = .next t) :
    t.pc = throughCodec s.cfg.codec (s.pc + 1) := by
  rw [step_pc_of_not_jump h hi ht, writeAll_pc hw]

theorem step_pc_of_jump {x : OpIndex} (h : Executes s (.jmp (.idx x))) (ht : step s = .next t) :
    t.pc = throughCodec s.cfg.codec x := by
  cases (step_jmp h).symm.trans ht
  exact setPc_pc s x

/-- A low byte below 128 plus one carries nothing into the high byte. -/
theorem pc_succ_bytes (hlo : (s.memRead pcLo).toNat < 128) :
    ((s.pc + 1).extractLsb' 0 8).toNat = (s.memRead pcLo).toNat + 1 ∧ (s.pc + 1).extractLsb' 8 8 = s.memRead pcHi := by
  have hhi := (s.memRead pcHi).isLt
  have hpc : (s.pc + 1).toNat = (s.memRead pcLo).toNat + 256 * (s.memRead pcHi).toNat + 1 := by
    rw [BitVec.toNat_add, pc_toNat]
    exact Nat.mod_eq_of_lt (show _ + 1 < 2 ^ 16 by omega)
  refine ⟨by rw [field_toNat, hpc]; omega, BitVec.eq_of_toNat_eq ?_⟩
  rw [field_toNat, hpc]
  omega

theorem page_of_pc (hk : s.cfg.codec = .ref) (h : t.pc = throughCodec .ref (s.pc + 1)) :
    (t.memRead pcLo).toNat = ((s.memRead pcLo).toNat + 1) % 128 ∧ t.memRead pcHi = s.memRead pcHi := by
  obtain ⟨hlow, hhigh⟩ := pc_succ_bytes (memRead_lt_of_ref hk pcLo)
  constructor
  · rw [← pc_low_byte, h, throughCodec, BitVec.extractLsb'_append_eq_right, ref_rt_toNat, hlow]
  · apply BitVec.eq_of_toNat_eq
    rw [← pc_high_byte, h, throughCodec, BitVec.extractLsb'_append_eq_left, hhigh, ref_rt_toNat,
      Nat.mod_eq_of_lt (memRead_lt_of_ref hk pcHi)]

end

/-- Settles O35: the PC after the cycle goes through the codec, which under CODEC_REF clears bit 7 of both bytes and under
CODEC_BIJ is the identity. -/
theorem pcRunsInsideAPageUnderTheDefaultCodec : Obligations.PcRunsInsideAPageUnderTheDefaultCodec := by
  intro s t i h ht
  refine ⟨fun hk => ⟨pc_and_of_ref hk, fun hi hw => ?_, ?_⟩, fun hk => ⟨fun hi hw => ?_, ?_⟩⟩
  · exact page_of_pc hk (hk ▸ step_pc_of_no_pc_write h hi hw ht)
  · rintro x rfl
    rw [step_pc_of_jump h ht, hk, throughCodec_ref]
  · rw [step_pc_of_no_pc_write h hi hw ht, hk, throughCodec_bij]
  · rintro x rfl
    rw [step_pc_of_jump h ht, hk, throughCodec_bij]

end Sys2Proof.Machine
end

section
/-! PROOFS. The access trace of a cycle is the cycle (spec/45_cycle.md section 3, spec/20_memory.md section 6; log entry
12). -/

namespace Sys2Proof.Machine

open Sys2Proof.Claims

/-! Traces whose reads tell what their cells hold. -/

/-- Every read of the trace carries the colour that its cell has after the accesses before it, from the grid `m` on. -/
def ReadsHold : Memory → List Access → Prop
  | _, [] => True
  | m, .read a c :: rest => c = m.colourAt a.toNat ∧ ReadsHold m rest
  | m, .write a c :: rest => ReadsHold (m.put a.toNat c) rest

theorem readsHold_append (m : Memory) (xs ys : List Access) :
    ReadsHold m (xs ++ ys) ↔ ReadsHold m xs ∧ ReadsHold (m.replay xs) ys := by
  induction xs generalizing m with
  | nil => simp [ReadsHold, Memory.replay]
  | cons x xs ih =>
    cases x with
    | read a c => exact (and_congr_right fun _ => ih m).trans and_assoc.symm
    | write a c => exact ih (m.put a.toNat c)

theorem readsHold_reads (s : State) (cells : List Cell) : ReadsHold s.grid (cells.map s.readAccess) := by
  induction cells with
  | nil => trivial
  | cons a cells ih => exact ⟨rfl, ih⟩

theorem readsHold_writes (m : Memory) (s : State) (ws : List (Cell × Byte)) : ReadsHold m (writeAccesses s ws) := by
  induction ws generalizing m with
  | nil => trivial
  | cons w ws ih => exact ih _

theorem colour_of_readsHold {m : Memory} {before after : List Access} {a : Cell} {c : Colour}
    (h : ReadsHold m (before ++ .read a c :: after)) : c = (m.replay before).colourAt a.toNat := by
  obtain ⟨-, hc, -⟩ := (readsHold_append _ _ _).mp h
  exact hc

/-! The parts of a trace: reads of a state, then the writes made from it. -/

section
variable (s : State) (cells : List Cell) (ws : List (Cell × Byte))

theorem replay_reads_writes :
    s.grid.replay (cells.map s.readAccess ++ writeAccesses s ws) = (s.writeAll ws).grid := by
  rw [replay_append, replay_reads, replay_writes ws rfl]

theorem readsHold_reads_writes : ReadsHold s.grid (cells.map s.readAccess ++ writeAccesses s ws) :=
  (readsHold_append _ _ _).mpr ⟨readsHold_reads s cells, readsHold_writes _ s ws⟩

end

theorem writeAccesses_congr {s t : State} (hc : t.cfg = s.cfg) (ws : List (Cell × Byte)) :
    writeAccesses t ws = writeAccesses s ws := by
  simp only [writeAccesses, hc]

/-- The accesses of Advance in the state that Execute left (R91 (4)). -/
def advanceAccesses (s : State) : List Access :=
  [pcLo, pcHi].map s.readAccess ++ writeAccesses s (advanceWrites s)

section
variable {i : Instr} (s : State)

theorem operationAccesses_of_jump (hi : isJump i = true) : operationAccesses s i =
    (executeReads s i).map s.readAccess ++ writeAccesses s (executeWrites s i) := by
  simp [operationAccesses, hi]

theorem operationAccesses_of_not_jump (hi : isJump i = false) : operationAccesses s i =
    ((executeReads s i).map s.readAccess ++ writeAccesses s (executeWrites s i)) ++
      advanceAccesses (s.writeAll (executeWrites s i)) := by
  simp [operationAccesses, hi, advanceAccesses, writeAccesses_congr (writeAll_cfg _ s)]

theorem readsHold_operationAccesses (i : Instr) : ReadsHold s.grid (operationAccesses s i) := by
  cases hi : isJump i with
  | true =>
    rw [operationAccesses_of_jump s hi]
    exact readsHold_reads_writes _ _ _
  | false =>
    rw [operationAccesses_of_not_jump s hi, readsHold_append, replay_reads_writes]
    exact ⟨readsHold_reads_writes _ _ _, readsHold_reads_writes _ _ _⟩

end

/-! What the trace of an operation does to the grid is what Execute and Advance do. -/

theorem exec_jumped_of_jump {i : Instr} {s u : State} (h : exec i s = .next u) (hi : isJump i = true) :
    u.jumped = true := by
  cases i with
  | jmp target =>
    cases target with
    | idx x => cases h; rfl
    | lit | dir | ptr => cases h
  | cpy | add | sub | mul | rng | nop00 | nop07 | nop08 | nop10 | nop20 | nop40 | nop80 => cases hi

theorem writeAll_advanceWrites (s : State) : s.writeAll (advanceWrites s) = s.setPc (s.pc + 1) := rfl

theorem setPc_grid_congr {s t : State} (hg : t.grid = s.grid) (hc : t.cfg = s.cfg) (x : OpIndex) :
    (t.setPc x).grid = (s.setPc x).grid := by
  simp only [State.setPc, memWrite_grid, memWrite_cfg, hg, hc]

section
variable {i : Instr} {s u : State} (h : exec i s.clearJumped = .next u)
include h

theorem exec_clearJumped_grid : u.grid = (s.writeAll (executeWrites s i)).grid := by
  rw [exec_grid h, executeWrites_clearJumped, writeAll_clearJumped, clearJumped_grid]

theorem replay_operationAccesses : s.grid.replay (operationAccesses s i) = u.advance.grid := by
  have hgrid := exec_clearJumped_grid h
  cases hi : isJump i with
  | true =>
    rw [operationAccesses_of_jump s hi, replay_reads_writes, advance_grid_of_jumped (exec_jumped_of_jump h hi), hgrid]
  | false =>
    have hcfg : u.cfg = (s.writeAll (executeWrites s i)).cfg := (exec_prog_cfg h).2.trans (writeAll_cfg _ s).symm
    rw [operationAccesses_of_not_jump s hi, replay_append, replay_reads_writes, advanceAccesses, replay_reads_writes,
      writeAll_advanceWrites, advance_of_not_jumped (exec_jumped h hi), pc_congr hgrid hcfg, setPc_grid_congr hgrid hcfg]

end

/-! The trace of a cycle. -/

section
variable {s : State} (hp : s.problem = none)
include hp

theorem cycleAccesses_of_idle (hf : s.fetch = none) : s.cycleAccesses = [pcLo, pcHi].map s.readAccess := by
  simp [State.cycleAccesses, hp, hf]

theorem cycleAccesses_of_decode {W : OpWord} {i : Instr} (hf : s.fetch = some W) (hd : decode W = .ok i) :
    s.cycleAccesses = [pcLo, pcHi].map s.readAccess ++ operationAccesses s i := by
  simp [State.cycleAccesses, hp, hf, hd]

end

theorem replay_cycleAccesses {s t : State} (h : step s = .next t) : s.grid.replay s.cycleAccesses = t.grid := by
  obtain ⟨hp, ⟨hf, rfl⟩ | ⟨W, i, u, hf, hd, hu, rfl⟩⟩ := step_next h
  · rw [cycleAccesses_of_idle hp hf, replay_reads]
  · rw [cycleAccesses_of_decode hp hf hd, replay_append, replay_reads, replay_operationAccesses hu]

theorem readsHold_cycleAccesses {s t : State} (h : step s = .next t) : ReadsHold s.grid s.cycleAccesses := by
  obtain ⟨hp, ⟨hf, -⟩ | ⟨W, i, -, hf, hd, -, -⟩⟩ := step_next h
  · rw [cycleAccesses_of_idle hp hf]
    exact readsHold_reads s _
  · rw [cycleAccesses_of_decode hp hf hd, readsHold_append, replay_reads]
    exact ⟨readsHold_reads s _, readsHold_operationAccesses s i⟩

/-- Settles O36: the trace is reads of a state followed by the writes made from it, once for Execute and once for
Advance. -/
theorem accessTraceIsTheCycle : Obligations.AccessTraceIsTheCycle := by
  intro s t h
  refine ⟨replay_cycleAccesses h, fun before after a c hsplit => ?_⟩
  have hreads := readsHold_cycleAccesses h
  rw [hsplit] at hreads
  exact colour_of_readsHold hreads

/-! Which cells a cycle writes (R84). -/

theorem oneWrite_cells (s : State) (dst : Slot) (v : Option Byte) :
    (oneWrite s dst v).map (·.1) = [] ∨ ∃ d, (oneWrite s dst v).map (·.1) = [d] := by
  unfold oneWrite
  split
  · next d x hd => exact .inr ⟨d, rfl⟩
  · exact .inl rfl
  · exact .inl rfl

theorem executeWrites_cells_of_not_jump (s : State) {i : Instr} (hi : isJump i = false) :
    (executeWrites s i).map (·.1) = [] ∨ ∃ d, (executeWrites s i).map (·.1) = [d] := by
  cases i with
  | cpy | add | sub | mul | rng => exact oneWrite_cells s _ _
  | jmp target => cases hi
  | nop00 | nop07 | nop08 | nop10 | nop20 | nop40 | nop80 => exact .inl rfl

theorem executeWrites_cells_of_jump {s u : State} {i : Instr} (h : exec i s.clearJumped = .next u)
    (hi : isJump i = true) : (executeWrites s i).map (·.1) = [pcLo, pcHi] := by
  cases i with
  | jmp target =>
    cases target with
    | idx x => rfl
    | lit | dir | ptr => cases h
  | cpy | add | sub | mul | rng | nop00 | nop07 | nop08 | nop10 | nop20 | nop40 | nop80 => cases hi

theorem writtenCells_reads_writes (s : State) (cells : List Cell) (ws : List (Cell × Byte)) :
    writtenCells (cells.map s.readAccess ++ writeAccesses s ws) = ws.map (·.1) := by
  rw [writtenCells_append, writtenCells_reads, writtenCells_writes, List.nil_append]

theorem writtenCells_operationAccesses {s u : State} {i : Instr} (h : exec i s.clearJumped = .next u) :
    writtenCells (operationAccesses s i) = [pcLo, pcHi] ∨ ∃ d, writtenCells (operationAccesses s i) = [d, pcLo, pcHi] := by
  cases hi : isJump i with
  | true => exact .inl (by rw [operationAccesses_of_jump s hi, writtenCells_reads_writes, executeWrites_cells_of_jump h hi])
  | false =>
    rw [operationAccesses_of_not_jump s hi, writtenCells_append, writtenCells_reads_writes, advanceAccesses,
      writtenCells_reads_writes]
    obtain hnone | ⟨d, hone⟩ := executeWrites_cells_of_not_jump s hi
    · exact .inl (by rw [hnone]; rfl)
    · exact .inr ⟨d, by rw [hone]; rfl⟩

theorem writtenCells_cycleAccesses {s t : State} (h : step s = .next t) :
    writtenCells s.cycleAccesses = [] ∨ writtenCells s.cycleAccesses = [pcLo, pcHi] ∨
      ∃ d, writtenCells s.cycleAccesses = [d, pcLo, pcHi] := by
  obtain ⟨hp, ⟨hf, -⟩ | ⟨W, i, u, hf, hd, hu, -⟩⟩ := step_next h
  · rw [cycleAccesses_of_idle hp hf, writtenCells_reads]
    exact .inl rfl
  · rw [cycleAccesses_of_decode hp hf hd, writtenCells_append, writtenCells_reads, List.nil_append]
    exact .inr (writtenCells_operationAccesses hu)

/-- A cell that no access of the list writes keeps its colour. -/
theorem replay_colourAt {xs : List Access} {m : Memory} {b : Cell} (h : b ∉ writtenCells xs) :
    (m.replay xs).colourAt b.toNat = m.colourAt b.toNat := by
  induction xs generalizing m with
  | nil => rfl
  | cons x xs ih =>
    cases x with
    | read a c => exact ih h
    | write a c =>
      obtain ⟨hba, hb⟩ := not_or.mp (mt List.mem_cons.mpr h)
      exact (ih hb).trans (put_colourAt_other m c (cell_toNat_ne hba))

/-- Settles O37: the cells that the trace writes, by the shape of the cycle; and the new grid is the trace replayed. -/
theorem cycleWritesAtMostThreeCells : Obligations.CycleWritesAtMostThreeCells := by
  intro s t h
  refine ⟨writtenCells_cycleAccesses h, fun b hb => ?_⟩
  rw [State.colourAt, ← replay_cycleAccesses h]
  exact replay_colourAt hb

end Sys2Proof.Machine
end

section
/-! PROOFS. The between-cycles invariant (spec/10_state.md sections 2, 4 and 7, spec/60_exceptions.md section 3,
spec/70_reset_and_hazards.md section 2; log entry 6). -/

namespace Sys2Proof.Machine

open Sys2Proof.Claims

/-! The part of the invariant that speaks of the grid. -/

/-- The grid is canonical and every colour in it is coded (R17; log entry 6). -/
structure GridSound (s : State) : Prop where
  canonical : s.grid.wf = true
  coded     : s.coded

theorem State.Ready.gridSound {s : State} (h : s.Ready) : GridSound s := ⟨h.canonical, h.coded⟩

theorem GridSound.ready {s : State} (h : GridSound s) (hj : s.jumped = false) (hp : s.problem = none) : s.Ready :=
  ⟨h.canonical, hj, h.coded, hp⟩

theorem gridSound_congr {s t : State} (hg : t.grid = s.grid) (hc : t.cfg = s.cfg) (h : GridSound s) : GridSound t := by
  refine ⟨hg ▸ h.canonical, fun a => ?_⟩
  rw [colourAt_congr hg, hc]
  exact h.coded a

theorem gridSound_nil {s : State} (hg : s.grid = []) : GridSound s :=
  ⟨by rw [hg, Memory.wf], fun a => .inl (colourAt_of_grid_nil hg a)⟩

section
variable {s : State} (h : GridSound s)
include h

theorem gridSound_memWrite (a : Cell) (v : Byte) : GridSound (s.memWrite a v) := by
  refine ⟨memWrite_wf a v h.canonical, fun b => ?_⟩
  rw [memWrite_colourAt, memWrite_cfg]
  split
  · exact .inr ⟨v, rfl⟩
  · exact h.coded b

theorem gridSound_setPc (x : OpIndex) : GridSound (s.setPc x) := gridSound_memWrite (gridSound_memWrite h _ _) _ _

theorem gridSound_advance : GridSound s.advance := by
  cases hj : s.jumped with
  | true => rw [advance_of_jumped hj]; exact gridSound_congr (clearJumped_grid s) (clearJumped_cfg s) h
  | false => rw [advance_of_not_jumped hj]; exact gridSound_setPc h _

theorem gridSound_exec {i : Instr} {t : State} (ht : exec i s = .next t) : GridSound t := by
  obtain ⟨a, v, rfl⟩ | ⟨dst, a, -, -, rfl⟩ | ⟨x, -, rfl⟩ | ⟨-, -, rfl⟩ := exec_next ht
  · exact gridSound_memWrite h a v
  · exact gridSound_memWrite (gridSound_congr (drawn_grid s) (drawn_cfg s) h) a _
  · exact gridSound_congr (setJumped_grid _) (setJumped_cfg _) (gridSound_setPc h x)
  · exact h

theorem gridSound_step {t : State} (ht : step s = .next t) : GridSound t := by
  obtain ⟨-, ⟨-, rfl⟩ | ⟨W, i, u, -, -, hu, rfl⟩⟩ := step_next ht
  · exact h
  · exact gridSound_advance (gridSound_exec (gridSound_congr (clearJumped_grid s) (clearJumped_cfg s) h) hu)

end

theorem gridSound_packFrom (bytes : List Byte) (k : Nat) {s : State} (h : GridSound s) :
    GridSound (packFrom k bytes s) := by
  induction bytes generalizing k s with
  | nil => exact h
  | cons v rest ih => exact ih (k + 1) (gridSound_memWrite h _ v)

/-! Cycles and events. -/

theorem step_jumped {s t : State} (hj : s.jumped = false) (h : step s = .next t) : t.jumped = false := by
  obtain ⟨-, ⟨-, rfl⟩ | ⟨W, i, u, -, -, -, rfl⟩⟩ := step_next h
  · exact hj
  · exact advance_jumped u

/-- Settles O41: an idle cycle changes nothing, and every other ends in Advance. -/
theorem jumpedIsClearBetweenCycles : Obligations.JumpedIsClearBetweenCycles := fun _ _ => step_jumped

theorem ready_step {s t : State} (h : s.Ready) (ht : step s = .next t) : t.Ready := by
  obtain ⟨hprog, hcfg⟩ := step_prog_cfg ht
  exact (gridSound_step h.gridSound ht).ready (step_jumped h.notJumped ht) ((problem_congr hprog hcfg).trans h.admitted)

/-- Settles O38: the writes of a cycle are cell writes of encoded bytes, and what admits the machine does not change. -/
theorem everyCycleKeepsReady : Obligations.EveryCycleKeepsReady := fun _ _ => ready_step

theorem lawful_of_ready {s : State} (h : s.Ready) : s.cfg.codec.lawful = true := (problem_eq_none.mp h.admitted).1

theorem ready_clockEdge {tick : Bool} {s t : State} (h : s.Ready) (ht : clockEdge tick s = .next t) : t.Ready := by
  cases tick with
  | true => exact ready_step h ht
  | false => cases ht; exact h

/-- A program that is loaded is one of this machine. -/
theorem ready_loadProgram {p : List OpWord} {s t : State} (h : s.Ready) (ht : loadProgram p s = .next t) : t.Ready := by
  obtain ⟨hp, rfl⟩ := loadProgram_next ht
  have hloaded : GridSound { s with prog := p } := gridSound_congr (s := s) rfl rfl h.gridSound
  have hk := lawful_of_ready h
  exact (gridSound_setPc hloaded 0).ready h.notJumped (problem_eq_none.mpr ⟨hk, programProblem_eq_none.mp hp⟩)

theorem ready_gridReset {s : State} (h : s.Ready) : (gridReset s).Ready :=
  (gridSound_nil (gridReset_grid s)).ready (gridReset_jumped s)
    ((problem_congr (gridReset_prog s) (gridReset_cfg s)).trans h.admitted)

theorem ready_hostWrite {s : State} (h : s.Ready) (a : Cell) (v : Byte) : (hostWrite a v s).Ready :=
  (gridSound_memWrite h.gridSound a v).ready h.notJumped h.admitted

theorem ready_bulkLoad {bytes : List Byte} {s t : State} (h : s.Ready) (ht : bulkLoad bytes s = .next t) : t.Ready := by
  obtain ⟨-, rfl⟩ := bulkLoad_next ht
  obtain ⟨hj, hprog, hcfg, -, -⟩ := packFrom_fields bytes 0 s
  exact (gridSound_packFrom bytes 0 h.gridSound).ready (hj.trans h.notJumped)
    ((problem_congr hprog hcfg).trans h.admitted)

theorem ready_applyEvent {e : HostEvent} {s t : State} (h : s.Ready) (ht : applyEvent e s = .next t) : t.Ready := by
  cases e with
  | clock tick => exact ready_clockEdge h ht
  | load p => exact ready_loadProgram h ht
  | reset => cases ht; exact ready_gridReset h
  | write a v => cases ht; exact ready_hostWrite h a v
  | bulk bytes => exact ready_bulkLoad h ht

/-- A run that is not refused is its first event and then a run from there. -/
theorem runEvents_cons_next {e : HostEvent} {es : List HostEvent} {s t : State}
    (h : runEvents (e :: es) s = .next t) : ∃ u, applyEvent e s = .next u ∧ runEvents es u = .next t := by
  rw [runEvents] at h
  split at h
  · next u hu => exact ⟨u, hu, h⟩
  · cases h
  · cases h

/-- Settles O40, by induction on the events: each of them keeps the invariant. -/
theorem everyRunKeepsReady : Obligations.EveryRunKeepsReady := by
  intro es
  induction es with
  | nil => rintro s t h ht; cases ht; exact h
  | cons e es ih =>
    intro s t h ht
    obtain ⟨u, hu, hrest⟩ := runEvents_cons_next ht
    exact ih u t (ready_applyEvent h hu) hrest

/-- Settles O39: the grid lists no cell, and the machine of the defaults without a program is admitted. -/
theorem resetIsReady : Obligations.ResetIsReady := (gridSound_nil rfl).ready rfl (by decide)

/-- Settles O45: BLANK decodes to 0 under a lawful codec, and an encoded byte to its round trip. -/
theorem readableBytesAreRoundTrips : Obligations.ReadableBytesAreRoundTrips := by
  intro s a h
  obtain hblank | ⟨v, hv⟩ := h.coded a
  · exact .inl (by rw [State.memRead, hblank, decode_blank_of_lawful (lawful_of_ready h)])
  · exact .inr ⟨v, by rw [State.memRead, hv, Codec.rt]⟩

end Sys2Proof.Machine
end

section
/-! PROOFS. What the core cannot see: which of the colours of one byte a cell holds (spec/10_state.md section 2), and the
random input in a cycle that executes no `rng` (spec/42_rng.md). -/

namespace Sys2Proof.Machine

open Sys2Proof.Claims

/-! Machines whose cells decode to the same bytes (R17). -/

section
variable {s t : State} (h : SameBytes s t)
include h

theorem sameBytes_memRead (a : Cell) : t.memRead a = s.memRead a := by
  obtain ⟨-, hread⟩ := h
  exact hread a

theorem sameBytes_cfg : t.cfg = s.cfg := by
  obtain ⟨⟨-, -, hcfg, -, -⟩, -⟩ := h
  exact hcfg

theorem sameBytes_prog : t.prog = s.prog := by
  obtain ⟨⟨-, hprog, -, -, -⟩, -⟩ := h
  exact hprog

theorem sameBytes_jumped : t.jumped = s.jumped := by
  obtain ⟨⟨hj, -, -, -, -⟩, -⟩ := h
  exact hj

theorem sameBytes_problem : t.problem = s.problem := problem_congr (sameBytes_prog h) (sameBytes_cfg h)

theorem sameBytes_pc : t.pc = s.pc := by
  simp only [State.pc, sameBytes_memRead h]

theorem sameBytes_fetch : t.fetch = s.fetch := by
  simp only [State.fetch, sameBytes_prog h, sameBytes_pc h]

theorem sameBytes_rnd : t.rnd = s.rnd := by
  obtain ⟨⟨-, -, -, hrnd, hdraws⟩, -⟩ := h
  simp only [State.rnd, hrnd, hdraws]

theorem sameBytes_memWrite (a : Cell) (v : Byte) : SameBytes (s.memWrite a v) (t.memWrite a v) := by
  have hfields : SameButGrid (s.memWrite a v) (t.memWrite a v) := h.left
  refine ⟨hfields, fun b => ?_⟩
  rw [memWrite_memRead, memWrite_memRead, sameBytes_cfg h, sameBytes_memRead h]

theorem sameBytes_setPc (x : OpIndex) : SameBytes (s.setPc x) (t.setPc x) :=
  sameBytes_memWrite (sameBytes_memWrite h _ _) _ _

theorem sameBytes_drawn : SameBytes s.drawn t.drawn := by
  obtain ⟨⟨hj, hprog, hcfg, hrnd, hdraws⟩, hread⟩ := h
  exact ⟨⟨hj, hprog, hcfg, congrArg List.tail hrnd, congrArg (· + 1) hdraws⟩, hread⟩

theorem sameBytes_setJumped : SameBytes s.setJumped t.setJumped := by
  obtain ⟨⟨-, hrest⟩, hread⟩ := h
  exact ⟨⟨rfl, hrest⟩, hread⟩

theorem sameBytes_clearJumped : SameBytes s.clearJumped t.clearJumped := by
  obtain ⟨⟨-, hrest⟩, hread⟩ := h
  exact ⟨⟨rfl, hrest⟩, hread⟩

theorem sameBytes_advance : SameBytes s.advance t.advance := by
  cases hj : s.jumped with
  | true =>
    rw [advance_of_jumped hj, advance_of_jumped ((sameBytes_jumped h).trans hj)]
    exact sameBytes_clearJumped h
  | false =>
    rw [advance_of_not_jumped hj, advance_of_not_jumped ((sameBytes_jumped h).trans hj), sameBytes_pc h]
    exact sameBytes_setPc h _

theorem agree_storeByte (dst : Slot) (v : Option Byte) : Agree SameBytes (storeByte dst v s) (storeByte dst v t) := by
  unfold storeByte
  rw [dest?_congr (sameBytes_memRead h)]
  split
  · next x a _ => exact sameBytes_memWrite h a x
  · rfl
  · rfl

theorem agree_arithmetic (f : Byte → Byte → Byte) (dst a b : Slot) :
    Agree SameBytes (arithmetic f dst a b s) (arithmetic f dst a b t) := by
  have hvalue := value?_congr (sameBytes_memRead h)
  rw [arithmetic, arithmetic, hvalue, hvalue]
  exact agree_storeByte h dst _

theorem agree_unassigned : Agree SameBytes (unassigned s) (unassigned t) := by
  unfold unassigned
  rw [sameBytes_cfg h]
  split
  · rfl
  · exact h

/-- Execute reads cells through the codec alone. -/
theorem agree_exec (i : Instr) : Agree SameBytes (exec i s) (exec i t) := by
  cases i with
  | cpy dst src =>
    rw [exec, exec, execCpy, execCpy, value?_congr (sameBytes_memRead h)]
    exact agree_storeByte h dst _
  | add dst a b => exact agree_arithmetic h addByte dst a b
  | sub dst a b => exact agree_arithmetic h subByte dst a b
  | mul dst a b => exact agree_arithmetic h mulByte dst a b
  | rng dst =>
    rw [exec, exec, execRng, execRng, sameBytes_rnd h]
    exact agree_storeByte (sameBytes_drawn h) dst _
  | jmp target =>
    cases target with
    | idx x => exact sameBytes_setJumped (sameBytes_setPc h x)
    | lit | dir | ptr => rfl
  | nop00 | nop07 | nop08 | nop10 | nop20 | nop40 | nop80 => exact agree_unassigned h

end

/-- Outcomes that agree are two next states, related, or one refusal. -/
theorem agree_cases {R : State → State → Prop} {o q : Host.Outcome State Fault Refusal} (h : Agree R o q) :
    (∃ s t, o = .next s ∧ q = .next t ∧ R s t) ∨ ∃ r, o = .refused r ∧ q = .refused r := by
  cases o with
  | next s =>
    cases q with
    | next t => exact .inl ⟨s, t, rfl, rfl, h⟩
    | fault r => exact h.elim
    | refused r => exact h.elim
  | fault r => exact h.elim
  | refused r =>
    cases q with
    | next t => exact h.elim
    | fault r => exact h.elim
    | refused q => cases h; exact .inr ⟨r, rfl, rfl⟩

theorem agree_thenAdvance {o q : Host.Outcome State Fault Refusal} (h : Agree SameBytes o q) :
    Agree SameBytes (thenAdvance o) (thenAdvance q) := by
  obtain ⟨s, t, rfl, rfl, h⟩ | ⟨r, rfl, rfl⟩ := agree_cases h
  · exact sameBytes_advance h
  · rfl

theorem agree_step {s t : State} (h : SameBytes s t) : Agree SameBytes (step s) (step t) := by
  unfold step
  rw [sameBytes_problem h, sameBytes_fetch h, sameBytes_pc h]
  split
  · rfl
  · split
    · exact h
    · split
      · rfl
      · next i _ => exact agree_thenAdvance (agree_exec (sameBytes_clearJumped h) i)

theorem run_of_step_next (M : Host.Core) {s t : M.State} (h : M.step s = .next t) (n : Nat) :
    M.run (n + 1) s = M.run n t := by
  simp only [Host.Core.run, h]

theorem run_of_step_refused (M : Host.Core) {s : M.State} {r : M.Refusal} (h : M.step s = .refused r) (n : Nat) :
    M.run (n + 1) s = .refused r := by
  simp only [Host.Core.run, h]

/-- Settles O43, by induction on the number of cycles: related machines take related steps or are refused alike. -/
theorem coreSeesOnlyBytes : Obligations.CoreSeesOnlyBytes := by
  intro n
  induction n with
  | zero => exact fun _ _ h => h
  | succ n ih =>
    intro s t h
    obtain ⟨s', t', hs, ht, h'⟩ | ⟨r, hs, ht⟩ := agree_cases (agree_step h)
    · rw [run_of_step_next core hs, run_of_step_next core ht]
      exact ih s' t' h'
    · rw [run_of_step_refused core hs, run_of_step_refused core ht]
      rfl

/-! The random input (R78; log entry 5). -/

/-- The machine with other bytes on the random input and another account of draws. -/
def State.withRandom (s : State) (r : List Byte) (d : Nat) : State := { s with rndIn := r, draws := d }

section
variable {s t : State} (r : List Byte) (d : Nat)

theorem storeByte_withRandom {dst : Slot} {v : Option Byte} (h : storeByte dst v s = .next t) :
    storeByte dst v (s.withRandom r d) = .next (t.withRandom r d) := by
  obtain ⟨x, a, rfl, ha, rfl⟩ := storeByte_next h
  exact storeByte_of_some ((dest?_congr (fun _ => rfl) dst).trans ha)

theorem arithmetic_withRandom {f : Byte → Byte → Byte} {dst a b : Slot} (h : arithmetic f dst a b s = .next t) :
    arithmetic f dst a b (s.withRandom r d) = .next (t.withRandom r d) := by
  have hvalue : ∀ x, (s.withRandom r d).value? x = s.value? x := value?_congr fun _ => rfl
  rw [arithmetic, hvalue, hvalue]
  exact storeByte_withRandom r d h

theorem exec_withRandom {i : Instr} (hi : ∀ dst, i ≠ .rng dst) (h : exec i s = .next t) :
    exec i (s.withRandom r d) = .next (t.withRandom r d) := by
  cases i with
  | cpy dst src =>
    have hvalue : (s.withRandom r d).value? src = s.value? src := value?_congr (fun _ => rfl) src
    rw [exec, execCpy, hvalue]
    exact storeByte_withRandom r d h
  | add dst a b => exact arithmetic_withRandom r d h
  | sub dst a b => exact arithmetic_withRandom r d h
  | mul dst a b => exact arithmetic_withRandom r d h
  | rng dst => exact absurd rfl (hi dst)
  | jmp target =>
    cases target with
    | idx x => cases h; rfl
    | lit | dir | ptr => cases h
  | nop00 | nop07 | nop08 | nop10 | nop20 | nop40 | nop80 =>
    obtain ⟨hs, rfl⟩ := unassigned_next h
    exact exec_of_not_assigned rfl hs

theorem advance_withRandom (s : State) : (s.withRandom r d).advance = s.advance.withRandom r d := by
  cases hj : s.jumped with
  | true => rw [advance_of_jumped hj]; exact advance_of_jumped hj
  | false => rw [advance_of_not_jumped hj]; exact advance_of_not_jumped hj

end

/-- Settles O44: the random input admits and fetches nothing, and Execute of any operation but `rng` leaves it. -/
theorem onlyRngReadsTheRandomInput : Obligations.OnlyRngReadsTheRandomInput := by
  intro s t r d hrng h
  change step (s.withRandom r d) = .next (t.withRandom r d)
  obtain ⟨hp, ⟨hf, rfl⟩ | ⟨W, i, u, hf, hd, hu, rfl⟩⟩ := step_next h
  · exact step_of_fetch_none hp hf
  · have hi : ∀ dst, i ≠ .rng dst := by
      rintro dst rfl
      exact hrng dst ⟨hp, W, fetch_eq_some.mp hf, hd⟩
    have hexec : exec i (s.withRandom r d).clearJumped = .next (u.withRandom r d) := exec_withRandom r d hi hu
    rw [step_of_decode (s := s.withRandom r d) hp hf hd, hexec, thenAdvance, advance_withRandom]

end Sys2Proof.Machine
end

section
/-! PROOFS. The host's events and its way in (spec/60_exceptions.md section 3, spec/20_memory.md section 7; log entries 1, 4
and 11). -/

namespace Sys2Proof.Machine

open Sys2Proof.Claims

/-! Program load (R101). -/

theorem loadProgram_of_admitted {p : List OpWord} {s : State} (h : programProblem s.cfg.strict p = none) :
    loadProgram p s = .next (({ s with prog := p } : State).setPc 0) := by
  rw [loadProgram, h]

theorem loadProgram_refused {p : List OpWord} {s : State} (h : programProblem s.cfg.strict p ≠ none) :
    ∃ r, loadProgram p s = .refused r := by
  obtain ⟨r, hr⟩ := Option.ne_none_iff_exists'.mp h
  exact ⟨r, by rw [loadProgram, hr]⟩

/-- The second law of R32: 0 survives the round trip. -/
theorem rt_zero_of_lawful {k : Codec} (h : k.lawful = true) : k.rt 0 = 0 := by
  rw [Codec.lawful, Bool.and_eq_true] at h
  exact eq_of_beq h.2

theorem throughCodec_zero {k : Codec} (h : k.lawful = true) : throughCodec k 0 = 0 := by
  have hzero : ∀ lo, (0 : OpIndex).extractLsb' lo 8 = 0 := fun lo => BitVec.extractLsb'_zero
  rw [throughCodec, hzero, hzero, rt_zero_of_lawful h]
  rfl

/-- A program is refused for a word that does not decode, and under STRICT for one of an unassigned opcode. -/
theorem programProblem_of_bad_word {strict : Bool} {p : List OpWord} {W : OpWord} (hW : W ∈ p)
    (hbad : (∃ e, decode W = .error e) ∨ (strict = true ∧ ¬ assignedOpcode W)) : programProblem strict p ≠ none := by
  intro hp
  obtain ⟨-, hwords⟩ := programProblem_eq_none.mp hp
  obtain ⟨e, he⟩ | ⟨rfl, ha⟩ := hbad
  · obtain ⟨i, hi, -⟩ := hwords W hW
    cases he.symm.trans hi
  · exact not_wf_strict_of_not_assignedOpcode ha (hwords W hW)

/-- Settles O47: an admitted program is stored and 0 written to the PC cells; any other is refused. -/
theorem programLoadZeroesThePc : Obligations.ProgramLoadZeroesThePc := by
  refine fun p s => ⟨fun hlen hwords => ?_, fun hbad => loadProgram_refused ?_⟩
  · have hzero (hk : s.cfg.codec.lawful = true) : (({ s with prog := p } : State).setPc 0).pc = 0 :=
      (setPc_pc _ 0).trans (throughCodec_zero hk)
    exact ⟨_, loadProgram_of_admitted (programProblem_eq_none.mpr ⟨hlen, hwords⟩), rfl,
      setPc_pcWritten { s with prog := p } 0, hzero, rfl, rfl, rfl, rfl⟩
  · obtain hlong | ⟨W, hW, hbad⟩ := hbad
    · exact fun hp => absurd (length_le_of_programProblem hp) (Nat.not_le.mpr hlong)
    · exact programProblem_of_bad_word hW hbad

/-! Bulk load (R46). -/

theorem packFrom_colourAt_below {bytes : List Byte} {k : Nat} {s : State} {a : Cell} (hlen : k + bytes.length ≤ 4096)
    (ha : a.toNat < k) : (packFrom k bytes s).colourAt a = s.colourAt a := by
  induction bytes generalizing k s with
  | nil => rfl
  | cons v rest ih =>
    rw [List.length_cons] at hlen
    have hne : a ≠ BitVec.ofNat 12 k := fun e => by
      have := congrArg BitVec.toNat e
      rw [BitVec.toNat_ofNat] at this
      omega
    rw [packFrom, ih (by omega) (by omega), hostWrite, memWrite_colourAt, if_neg hne]

/-- The cell `j` places after the first holds byte `j` of the stream; past the stream's end it is as before. -/
theorem packFrom_colourAt {bytes : List Byte} {k j : Nat} {s : State} {a : Cell} (hlen : k + bytes.length ≤ 4096)
    (ha : a.toNat = k + j) :
    (packFrom k bytes s).colourAt a = (bytes[j]?.map s.cfg.codec.encode).getD (s.colourAt a) := by
  have hlt := a.isLt
  induction bytes generalizing k j s with
  | nil => rfl
  | cons v rest ih =>
    rw [List.length_cons] at hlen
    have hcell : (BitVec.ofNat 12 k).toNat = k := Nat.mod_eq_of_lt (by omega)
    rw [packFrom]
    cases j with
    | zero =>
      have heq : a = BitVec.ofNat 12 k := BitVec.eq_of_toNat_eq (by omega)
      rw [packFrom_colourAt_below (by omega) (by omega), hostWrite, memWrite_colourAt, if_pos heq]
      rfl
    | succ j =>
      have hne : a ≠ BitVec.ofNat 12 k := fun e => by
        have := congrArg BitVec.toNat e
        omega
      rw [ih (j := j) (by omega) (by omega), hostWrite, memWrite_colourAt, if_neg hne, memWrite_cfg,
        List.getElem?_cons_succ]

theorem bulkLoad_of_length_le {bytes : List Byte} (s : State) (h : bytes.length ≤ 4096) :
    bulkLoad bytes s = .next (packFrom 0 bytes s) := if_neg (Nat.not_lt.mpr h)

/-- Settles O49, by induction on the stream: each byte is one cell write, which no later byte of the stream undoes. -/
theorem bulkLoadPacksFromIndexZero : Obligations.BulkLoadPacksFromIndexZero := by
  intro bytes s hlen
  refine ⟨_, bulkLoad_of_length_le s hlen, packFrom_fields bytes 0 s, fun a => ?_⟩
  rw [packFrom_colourAt (j := a.toNat) (by omega) (by omega)]
  cases bytes[a.toNat]? with
  | none => rfl
  | some v => rfl

/-! Ticks, host writes (R100, R103) and the placed word. -/

/-- Settles O50: a tick is `step`, an edge without a tick nothing, and a host write one cell write. -/
theorem tickIsOneCycleAndHostWriteOneCell : Obligations.TickIsOneCycleAndHostWriteOneCell :=
  fun s => ⟨rfl, rfl, fun a v => ⟨memWrite_wrote s a v, memWrite_sameButGrid s a v⟩⟩

theorem placeWord_getElem? (p : List OpWord) (k : Nat) (W : OpWord) : (placeWord p k W)[k]? = some W := by
  unfold placeWord
  split
  · next h => exact List.getElem?_set_self h
  · next h => rw [List.getElem?_append_right (by omega), List.getElem?_replicate_of_lt (by omega)]

/-- Settles O53: the placed word stands at the index that the PC names, and placing it leaves the PC. -/
theorem placedWordIsFetched : Obligations.PlacedWordIsFetched :=
  fun s _ _ => ⟨fetch_eq_some.mpr (placeWord_getElem? s.prog s.pc.toNat _), rfl, rfl, rfl, rfl, rfl, rfl⟩

end Sys2Proof.Machine
end

section
/-! PROOFS. The assembler (spec/30_encoding.md section 5). -/

namespace Sys2Proof.Machine

open Sys2Proof.Claims

theorem except_map_ok {ε α β : Type} {x : Except ε α} {f : α → β} {b : β} (h : x.map f = .ok b) :
    ∃ a, x = .ok a ∧ b = f a := by
  cases x with
  | error e => cases h
  | ok a => cases h; exact ⟨a, rfl, rfl⟩

/-- Every operation that the emit pass gives is that of a line. -/
theorem emitPass_wf {strict : Bool} {labels : List (List Char × Nat)} {lines : List (List Char)} {ops : List Instr}
    (h : emitPass strict labels lines = .ok ops) : ∀ i ∈ ops, i.wf strict = true := by
  induction lines generalizing ops with
  | nil => cases h; simp
  | cons line rest ih =>
    rw [emitPass] at h
    split at h
    · exact ih h
    · split at h
      · cases h
      · next i hi =>
        obtain ⟨more, hmore, rfl⟩ := except_map_ok h
        exact List.forall_mem_cons.mpr ⟨assembleLine_wf hi, ih hmore⟩

/-- All that assembling a text can give: the words of at most 65536 well-formed operations. -/
theorem assembleText_ok {strict : Bool} {text : List Char} {p : List OpWord} (h : assembleText strict text = .ok p) :
    ∃ ops : List Instr, p = ops.map encode ∧ ops.length ≤ 65536 ∧ ∀ i ∈ ops, i.wf strict = true := by
  unfold assembleText at h
  split at h
  · cases h
  · split at h
    · cases h
    · next ops hops =>
      split at h
      · cases h
      · next hlen =>
        cases h
        exact ⟨ops, rfl, Nat.le_of_not_lt hlen, emitPass_wf hops⟩

/-- Settles O51: the words are encodings of well-formed operations, and each decodes to its own. -/
theorem assembledProgramsAreAdmitted : Obligations.AssembledProgramsAreAdmitted := by
  intro strict text p h
  obtain ⟨ops, rfl, hlen, hwf⟩ := assembleText_ok h
  refine programProblem_eq_none.mpr ⟨by rwa [List.length_map], List.forall_mem_map.mpr fun i hi => ?_⟩
  obtain ⟨hk, -⟩ := wf_iff.mp (hwf i hi)
  exact ⟨i, decode_encode hk, hwf i hi⟩

/-- Settles O52: the y-cell is the address minus one, and a 12-bit subtraction is modulo 4096. -/
theorem pointerLiteralCells : Obligations.PointerLiteralCells := by
  refine fun a => ⟨a - 1, rfl, ?_⟩
  have hone : (1 : Cell).toNat = 1 := rfl
  rw [BitVec.toNat_sub, hone]
  omega

end Sys2Proof.Machine
end
